-- ==== Sys2Proof/Word.lean ====
section
/-! DEFINITION. The universal unit of the VaporSpec core, the Word (R5, R7), the keyboard's byte (R33), and
the register index (R13). -/

namespace Sys2Proof

/-- R7: "16-bit unsigned integer; the universal unit of code, data, and register value". -/
abbrev Word := BitVec 16

/-- R33: one keyboard value, 0 to 255; also one byte of a loader file (R158). It is no unit of data memory (R39). -/
abbrev Byte := BitVec 8

/-- R13: an index of an existing register, 0 to 15. -/
abbrev RegIx := Fin 16

end Sys2Proof
end

