-- ==== Sys2Proof/Syntax.lean ====
section
/-! DEFINITION. The instructions, one constructor per row of spec/opcode_table.json (R69, R72). Register operands are
register indices and immediates are bytes; the bits a row marks `x` (ignored, R71) are carried as they stand in the
word, so that no bit of an encoding is lost, and no meaning reads them (log 22). -/

namespace Sys2Proof

/-- An instruction as it is decoded from one Word (R64, R69, R72). Operands stand in field order. -/
inductive Instr where
  /-- R80. `ignored` is `arg1 : arg2`. -/
  | halt (ignored : BitVec 8)
  /-- R81: `arg1 = rd`, `arg2 = rs`. -/
  | cpy (rd rs : RegIx)
  /-- R82: `arg1 = rd`, `arg2 = rs`. -/
  | not (rd rs : RegIx)
  /-- R83: `arg1 = rn` holds the count; `ignored` is `arg2`. -/
  | lsl (rn : RegIx) (ignored : BitVec 4)
  /-- R84: `arg1 = rn` holds the count; `ignored` is `arg2`. -/
  | lsr (rn : RegIx) (ignored : BitVec 4)
  /-- R85: `arg1 = rs` (segment part), `arg2 = ro` (offset part). -/
  | jmp (rs ro : RegIx)
  /-- R86. `ignored` is `arg1 : arg2`. -/
  | nop (ignored : BitVec 8)
  /-- R87. -/
  | add (rd ra rb : RegIx)
  /-- R88. -/
  | sub (rd ra rb : RegIx)
  /-- R89. -/
  | addc (rd : RegIx) (imm8 : BitVec 8)
  /-- R90. -/
  | subc (rd : RegIx) (imm8 : BitVec 8)
  /-- R95. -/
  | cmp (rf ra rb : RegIx)
  /-- R96. -/
  | jlt (rf rs ro : RegIx)
  /-- R97. -/
  | jgt (rf rs ro : RegIx)
  /-- R98. -/
  | jeq (rf rs ro : RegIx)
  /-- R102. -/
  | ldr (rd rs ro : RegIx)
  /-- R103. -/
  | str (rv rs ro : RegIx)
  /-- R104. -/
  | lrc (rd : RegIx) (imm8 : BitVec 8)
  /-- R106. -/
  | and (rd ra rb : RegIx)
  /-- R107. -/
  | or (rd ra rb : RegIx)
  /-- R108. -/
  | xor (rd ra rb : RegIx)
  /-- R110, opcode 0x0 with `arg0 = 7`. `ignored` is `arg1 : arg2`. -/
  | unmappedExt7 (ignored : BitVec 8)
  /-- R110, opcode 0x0 with `arg0 = 8 .. 15`. `ignored` is `arg1 : arg2`. -/
  | unmappedExt8F (arg0 : BitVec 4) (ignored : BitVec 8)
  /-- R111, opcode 0xF. `ignored` is `arg0 : arg1 : arg2`. -/
  | unmappedF (ignored : BitVec 12)
deriving DecidableEq, Repr

/-- The name of the instruction's row in spec/opcode_table.json (R69; the three unmapped rows' names are the table's). -/
def Instr.mnemonic : Instr → String
  | .halt _ => "HALT"
  | .cpy _ _ => "CPY"
  | .not _ _ => "NOT"
  | .lsl _ _ => "LSL"
  | .lsr _ _ => "LSR"
  | .jmp _ _ => "JMP"
  | .nop _ => "NOP"
  | .add _ _ _ => "ADD"
  | .sub _ _ _ => "SUB"
  | .addc _ _ => "ADDC"
  | .subc _ _ => "SUBC"
  | .cmp _ _ _ => "CMP"
  | .jlt _ _ _ => "JLT"
  | .jgt _ _ _ => "JGT"
  | .jeq _ _ _ => "JEQ"
  | .ldr _ _ _ => "LDR"
  | .str _ _ _ => "STR"
  | .lrc _ _ => "LRC"
  | .and _ _ _ => "AND"
  | .or _ _ _ => "OR"
  | .xor _ _ _ => "XOR"
  | .unmappedExt7 _ => "UNMAPPED_EXT_7"
  | .unmappedExt8F _ _ => "UNMAPPED_EXT_8_F"
  | .unmappedF _ => "UNMAPPED_F"

/-- The register an instruction writes, if it writes one: the last column of R15. -/
def Instr.written : Instr → Option RegIx
  | .halt _ => none
  | .cpy rd _ => some rd
  | .not rd _ => some rd
  | .lsl _ _ => some 3
  | .lsr _ _ => some 4
  | .jmp _ _ => none
  | .nop _ => none
  | .add rd _ _ => some rd
  | .sub rd _ _ => some rd
  | .addc rd _ => some rd
  | .subc rd _ => some rd
  | .cmp rf _ _ => some rf
  | .jlt _ _ _ => none
  | .jgt _ _ _ => none
  | .jeq _ _ _ => none
  | .ldr rd _ _ => some rd
  | .str _ _ _ => none
  | .lrc rd _ => some rd
  | .and rd _ _ => some rd
  | .or rd _ _ => some rd
  | .xor rd _ _ => some rd
  | .unmappedExt7 _ => none
  | .unmappedExt8F _ _ => none
  | .unmappedF _ => none

/-- The segment and the offset register a jump takes its target from, `arg1` and `arg2` (R93); none for an instruction
that is no jump (R20). -/
def Instr.jumpsThrough : Instr → Option (RegIx × RegIx)
  | .jmp rs ro => some (rs, ro)
  | .jlt _ rs ro => some (rs, ro)
  | .jgt _ rs ro => some (rs, ro)
  | .jeq _ rs ro => some (rs, ro)
  | .halt _ | .cpy _ _ | .not _ _ | .lsl _ _ | .lsr _ _ | .nop _ | .add _ _ _ | .sub _ _ _ | .addc _ _
  | .subc _ _ | .cmp _ _ _ | .ldr _ _ _ | .str _ _ _ | .lrc _ _ | .and _ _ _ | .or _ _ _ | .xor _ _ _
  | .unmappedExt7 _ | .unmappedExt8F _ _ | .unmappedF _ => none

end Sys2Proof
end

