-- ==== Sys2Proof/WellFormed.lean ====
section
/-! DEFINITION. Which terms of `Instr` are instructions. The field widths are in the types (R13, R64), so one check is
left: the row UNMAPPED_EXT_8_F stands for `arg0 = 8 .. 15` only (R72, R110). Beside it, which instructions are in the
canonical form an assembler emits: every ignored bit 0 (R71, R75). -/

namespace Sys2Proof

/-- The term is an instruction: the row of R72 that spans several sub-opcodes names one of its own. -/
def Instr.wf : Instr → Bool
  | .unmappedExt8F arg0 _ => decide (8 ≤ arg0.toNat)
  | .halt _ | .cpy _ _ | .not _ _ | .lsl _ _ | .lsr _ _ | .jmp _ _ | .nop _ | .add _ _ _ | .sub _ _ _
  | .addc _ _ | .subc _ _ | .cmp _ _ _ | .jlt _ _ _ | .jgt _ _ _ | .jeq _ _ _ | .ldr _ _ _ | .str _ _ _
  | .lrc _ _ | .and _ _ _ | .or _ _ _ | .xor _ _ _ | .unmappedExt7 _ | .unmappedF _ => true

/-- R71: the canonical encoding "has every ignored bit 0". Execution does not depend on it: a word that is not
canonical is the same instruction. -/
def Instr.canonical : Instr → Bool
  | .halt ignored | .nop ignored | .unmappedExt7 ignored => ignored == 0#8
  | .lsl _ ignored | .lsr _ ignored => ignored == 0#4
  | .unmappedExt8F arg0 ignored => arg0 == 8#4 && ignored == 0#8
  | .unmappedF ignored => ignored == 0#12
  | .cpy _ _ | .not _ _ | .jmp _ _ | .add _ _ _ | .sub _ _ _ | .addc _ _ | .subc _ _ | .cmp _ _ _
  | .jlt _ _ _ | .jgt _ _ _ | .jeq _ _ _ | .ldr _ _ _ | .str _ _ _ | .lrc _ _ | .and _ _ _ | .or _ _ _
  | .xor _ _ _ => true

end Sys2Proof
end

