-- ==== Sys2Proof/Decode.lean ====
section
/-! DEFINITION. The decoder (R64, R65, R68, R70, R72), total on every Word and refusing none, since "every 16-bit value
decodes to *some* instruction"; the encoder written from the same table; and the table of R69 and R72 itself, as rows
of match and mask; and the assembler's line for an instruction (R75). -/

namespace Sys2Proof

/-! ### Bit fields -/

/-- The four 4-bit fields of an instruction Word (R64). -/
structure Fields where
  /-- bits 15:12 -/
  opcode : BitVec 4
  /-- bits 11:8 -/
  arg0 : BitVec 4
  /-- bits 7:4 -/
  arg1 : BitVec 4
  /-- bits 3:0 -/
  arg2 : BitVec 4
deriving DecidableEq, Repr

/-- R64: `decode(w) = (w[15:12], w[11:8], w[7:4], w[3:0])`. -/
def splitWord (w : Word) : Fields :=
  { opcode := w.extractLsb' 12 4
    arg0 := w.extractLsb' 8 4
    arg1 := w.extractLsb' 4 4
    arg2 := w.extractLsb' 0 4 }

/-- R65: `w = opcode : arg0 : arg1 : arg2`. -/
def joinFields (f : Fields) : Word := f.opcode ++ f.arg0 ++ f.arg1 ++ f.arg2

/-- A field used as the index `i` of `x[i]` (R67). -/
def regOf (field : BitVec 4) : RegIx := field.toFin

/-- The field that names a register. -/
def fieldOf (r : RegIx) : BitVec 4 := BitVec.ofFin r

/-- R66: `imm8 = arg1 : arg2`, the low byte of the word. -/
def imm8Of (f : Fields) : BitVec 8 := f.arg1 ++ f.arg2

/-- The high nibble of a byte: `arg1` of an RI form (R66). -/
def hiNibble (b : BitVec 8) : BitVec 4 := b.extractLsb' 4 4

/-- The low nibble of a byte: `arg2` of an RI form (R66). -/
def loNibble (b : BitVec 8) : BitVec 4 := b.extractLsb' 0 4

/-! ### Decoding -/

/-- R70, R79: the extended group, `opcode = 0`, selected by `arg0`; 8 to 15 is one row of the table. -/
def decodeExtended (f : Fields) : Instr :=
  match f.arg0.toNat with
  | 0 => .halt (imm8Of f)
  | 1 => .cpy (regOf f.arg1) (regOf f.arg2)
  | 2 => .not (regOf f.arg1) (regOf f.arg2)
  | 3 => .lsl (regOf f.arg1) f.arg2
  | 4 => .lsr (regOf f.arg1) f.arg2
  | 5 => .jmp (regOf f.arg1) (regOf f.arg2)
  | 6 => .nop (imm8Of f)
  | 7 => .unmappedExt7 (imm8Of f)
  | _ => .unmappedExt8F f.arg0 (imm8Of f)

/-- R68: the primary map by `opcode`; what is left after 0x0 to 0xE is 0xF alone. -/
def decodeFields (f : Fields) : Instr :=
  match f.opcode.toNat with
  | 0x0 => decodeExtended f
  | 0x1 => .add (regOf f.arg0) (regOf f.arg1) (regOf f.arg2)
  | 0x2 => .sub (regOf f.arg0) (regOf f.arg1) (regOf f.arg2)
  | 0x3 => .addc (regOf f.arg0) (imm8Of f)
  | 0x4 => .subc (regOf f.arg0) (imm8Of f)
  | 0x5 => .cmp (regOf f.arg0) (regOf f.arg1) (regOf f.arg2)
  | 0x6 => .jlt (regOf f.arg0) (regOf f.arg1) (regOf f.arg2)
  | 0x7 => .jgt (regOf f.arg0) (regOf f.arg1) (regOf f.arg2)
  | 0x8 => .jeq (regOf f.arg0) (regOf f.arg1) (regOf f.arg2)
  | 0x9 => .ldr (regOf f.arg0) (regOf f.arg1) (regOf f.arg2)
  | 0xA => .str (regOf f.arg0) (regOf f.arg1) (regOf f.arg2)
  | 0xB => .lrc (regOf f.arg0) (imm8Of f)
  | 0xC => .and (regOf f.arg0) (regOf f.arg1) (regOf f.arg2)
  | 0xD => .or (regOf f.arg0) (regOf f.arg1) (regOf f.arg2)
  | 0xE => .xor (regOf f.arg0) (regOf f.arg1) (regOf f.arg2)
  | _ => .unmappedF (f.arg0 ++ f.arg1 ++ f.arg2)

/-- R65: the decoder: deterministic, total, no side effects, no error conditions. -/
def decode (w : Word) : Instr := decodeFields (splitWord w)

/-- The host's reading of one table word: the low `nbits` bits of `w`, every bit above them 0, given to the decoder.
An instruction is one Word (R63) and no Word is refused (R65). -/
def decodeTableWord (nbits w : Nat) : Option Instr := some (decode (BitVec.ofNat 16 (w % 2 ^ nbits)))

/-! ### Encoding -/

/-- A word from an opcode and three register operands (form R3, R67). -/
def packR3 (opcode : BitVec 4) (r0 r1 r2 : RegIx) : Word :=
  joinFields { opcode := opcode, arg0 := fieldOf r0, arg1 := fieldOf r1, arg2 := fieldOf r2 }

/-- A word from an opcode, a register operand and an immediate (form RI, R66, R67). -/
def packRI (opcode : BitVec 4) (r0 : RegIx) (imm8 : BitVec 8) : Word :=
  joinFields { opcode := opcode, arg0 := fieldOf r0, arg1 := hiNibble imm8, arg2 := loNibble imm8 }

/-- A word of the extended group with two register operands (form X2, R67). -/
def packX2 (arg0 : BitVec 4) (r1 r2 : RegIx) : Word :=
  joinFields { opcode := 0x0#4, arg0 := arg0, arg1 := fieldOf r1, arg2 := fieldOf r2 }

/-- A word of the extended group with one register operand and an ignored field (form X1, R67). -/
def packX1 (arg0 : BitVec 4) (r1 : RegIx) (ignored : BitVec 4) : Word :=
  joinFields { opcode := 0x0#4, arg0 := arg0, arg1 := fieldOf r1, arg2 := ignored }

/-- A word of the extended group with both low fields ignored (form N, R67). -/
def packN (arg0 : BitVec 4) (ignored : BitVec 8) : Word :=
  joinFields { opcode := 0x0#4, arg0 := arg0, arg1 := hiNibble ignored, arg2 := loNibble ignored }

/-- The Word of an instruction, by the patterns of R69 and R72. -/
def encode : Instr → Word
  | .halt ignored => packN 0x0#4 ignored
  | .cpy rd rs => packX2 0x1#4 rd rs
  | .not rd rs => packX2 0x2#4 rd rs
  | .lsl rn ignored => packX1 0x3#4 rn ignored
  | .lsr rn ignored => packX1 0x4#4 rn ignored
  | .jmp rs ro => packX2 0x5#4 rs ro
  | .nop ignored => packN 0x6#4 ignored
  | .add rd ra rb => packR3 0x1#4 rd ra rb
  | .sub rd ra rb => packR3 0x2#4 rd ra rb
  | .addc rd imm8 => packRI 0x3#4 rd imm8
  | .subc rd imm8 => packRI 0x4#4 rd imm8
  | .cmp rf ra rb => packR3 0x5#4 rf ra rb
  | .jlt rf rs ro => packR3 0x6#4 rf rs ro
  | .jgt rf rs ro => packR3 0x7#4 rf rs ro
  | .jeq rf rs ro => packR3 0x8#4 rf rs ro
  | .ldr rd rs ro => packR3 0x9#4 rd rs ro
  | .str rv rs ro => packR3 0xA#4 rv rs ro
  | .lrc rd imm8 => packRI 0xB#4 rd imm8
  | .and rd ra rb => packR3 0xC#4 rd ra rb
  | .or rd ra rb => packR3 0xD#4 rd ra rb
  | .xor rd ra rb => packR3 0xE#4 rd ra rb
  | .unmappedExt7 ignored => packN 0x7#4 ignored
  | .unmappedExt8F arg0 ignored => packN arg0 ignored
  | .unmappedF ignored =>
      joinFields { opcode := 0xF#4, arg0 := ignored.extractLsb' 8 4, arg1 := ignored.extractLsb' 4 4,
                   arg2 := ignored.extractLsb' 0 4 }

/-! ### The opcode table as data -/

/-- One row of the opcode table: a Word is this instruction exactly when `w &&& mask = pattern` (R69). -/
structure OpcodeRow where
  /-- The row's name. -/
  mnemonic : String
  /-- The row's `match`. -/
  pattern : Word
  /-- The row's `mask`. -/
  mask : Word
deriving DecidableEq, Repr

/-- The complete opcode table: the 21 rows of R69 and the three unmapped blocks of R72. -/
def opcodeTable : List OpcodeRow :=
  [⟨"HALT", 0x0000#16, 0xFF00#16⟩, ⟨"CPY", 0x0100#16, 0xFF00#16⟩, ⟨"NOT", 0x0200#16, 0xFF00#16⟩,
   ⟨"LSL", 0x0300#16, 0xFF00#16⟩, ⟨"LSR", 0x0400#16, 0xFF00#16⟩, ⟨"JMP", 0x0500#16, 0xFF00#16⟩,
   ⟨"NOP", 0x0600#16, 0xFF00#16⟩] ++
  [⟨"ADD", 0x1000#16, 0xF000#16⟩, ⟨"SUB", 0x2000#16, 0xF000#16⟩, ⟨"ADDC", 0x3000#16, 0xF000#16⟩,
   ⟨"SUBC", 0x4000#16, 0xF000#16⟩, ⟨"CMP", 0x5000#16, 0xF000#16⟩, ⟨"JLT", 0x6000#16, 0xF000#16⟩,
   ⟨"JGT", 0x7000#16, 0xF000#16⟩, ⟨"JEQ", 0x8000#16, 0xF000#16⟩, ⟨"LDR", 0x9000#16, 0xF000#16⟩,
   ⟨"STR", 0xA000#16, 0xF000#16⟩, ⟨"LRC", 0xB000#16, 0xF000#16⟩, ⟨"AND", 0xC000#16, 0xF000#16⟩,
   ⟨"OR", 0xD000#16, 0xF000#16⟩, ⟨"XOR", 0xE000#16, 0xF000#16⟩] ++
  [⟨"UNMAPPED_EXT_7", 0x0700#16, 0xFF00#16⟩, ⟨"UNMAPPED_EXT_8_F", 0x0800#16, 0xF800#16⟩,
   ⟨"UNMAPPED_F", 0xF000#16, 0xF000#16⟩]

/-! ### Assembler syntax (R75): the spec's notation for its examples; the decision D17, log 22 -/

/-- One hexadecimal digit. -/
def hexDigit (d : BitVec 4) : String := String.singleton (Nat.digitChar d.toNat).toUpper

/-- A byte as `0xNN`. -/
def hexByte (b : BitVec 8) : String := "0x" ++ hexDigit (hiNibble b) ++ hexDigit (loNibble b)

/-- A register, `r0` to `r15`. -/
def regName (r : RegIx) : String := "r" ++ Nat.repr r.val

/-- A line with its operands in field order. -/
def asmLine (mnemonic : String) (operands : List String) : String :=
  if operands.isEmpty then mnemonic else mnemonic ++ " " ++ ", ".intercalate operands

/-- Any Word, for unmapped and non-canonical encodings. -/
def asmWord (w : Word) : String :=
  let f := splitWord w
  ".word 0x" ++ hexDigit f.opcode ++ hexDigit f.arg0 ++ hexDigit f.arg1 ++ hexDigit f.arg2

/-- R75: the line that stands for an instruction. -/
def assembly (i : Instr) : String :=
  if i.canonical = false then asmWord (encode i)
  else
    match i with
    | .halt _ | .nop _ => asmLine i.mnemonic []
    | .cpy a b | .not a b | .jmp a b => asmLine i.mnemonic [regName a, regName b]
    | .lsl n _ | .lsr n _ => asmLine i.mnemonic [regName n]
    | .add a b c | .sub a b c | .cmp a b c | .jlt a b c | .jgt a b c | .jeq a b c | .ldr a b c | .str a b c
    | .and a b c | .or a b c | .xor a b c => asmLine i.mnemonic [regName a, regName b, regName c]
    | .addc a imm8 | .subc a imm8 | .lrc a imm8 => asmLine i.mnemonic [regName a, hexByte imm8]
    | .unmappedExt7 _ | .unmappedExt8F _ _ | .unmappedF _ => asmWord (encode i)

end Sys2Proof
end

