-- ==== Sys2Proof/Config.lean ====
section
/-! DEFINITION. The parameters of the hardware: those the spec fixes (R5) as constants, those it leaves open (R6)
as free values with no body, and the type of the one parameter that has a default and an alternative (R44, R45). -/

namespace Sys2Proof.Config

/-! ### Fixed by the spec (R5) -/

/-- `NSEG`, R5: segments of data memory. -/
def nSeg : Nat := 256

/-- `SEGLEN`, R5: cells per segment. -/
def segLen : Nat := 256

/-- `ROM_BASE`, R5, R40: the first read-only segment. -/
def romBase : Nat := 128

/-- `QUIT_CODE`, R5, R118: the keyboard value that ends the run. -/
def quitCode : Byte := 113#8

/-- `TICK_PERIOD`, R5, in milliseconds: timing information, in no transition (R167). -/
def tickPeriodMs : Nat := 16

/-- `STATUS_HALT`, R5, R114. -/
def statusHalt : Nat := 0

/-- `STATUS_QUIT`, R5, R118. -/
def statusQuit : Nat := 0

/-- `STATUS_ILLEGAL_WRITE`, R5, R115. -/
def statusIllegalWrite : Nat := 1

/-- `FLAG_LT`, R5: what CMP writes for "less". -/
def flagLT : Word := 0#16

/-- `FLAG_EQ`, R5: what CMP writes for "equal". -/
def flagEQ : Word := 1#16

/-- `FLAG_GT`, R5: what CMP writes for "greater". -/
def flagGT : Word := 2#16

/-- The longest code sequence a 16-bit pc can reach (R6, R157, D21). -/
def maxCodeLen : Nat := 65536

/-- The longest ROM image that fits segments 128 to 255 (R6, R48, D11). -/
def maxRomLen : Nat := 32768

/-- `RESET_PC`, R6, R23: the first fetch is at index 0. UNVERIFIED (the spec's own decision D2, log 13). -/
def resetPc : Word := 0#16

/-! ### Left open by the spec (R6): free values -/

/-- `FETCH_FAULT_STATUS`, R6, R116: "any value; a model must not assume one". A free value (log 4). -/
opaque fetchFaultStatus : Nat

/-- The exit status of INDEX_OUT_OF_RANGE, "unspecified" (R27, R45). A free value (log 5). -/
opaque indexFaultStatus : Nat

/-- The shapes `KEYQ_DEPTH` can have, R6: "any integer >= 1, or unbounded". -/
inductive KeyqDepth where
  /-- No bound. -/
  | unbounded
  /-- Capacity `extra + 1`, so at least 1. -/
  | bounded (extra : Nat)
deriving DecidableEq, Repr, Inhabited

/-- `KEYQ_DEPTH`, R6, R129: the capacity of the keyboard queue. A free value (log 6). -/
opaque keyqDepth : KeyqDepth

/-- Whether the loader accepts a file with bytes beyond the declared payload, which the spec does not state
(R158, N24). A free value (log 23). -/
opaque loaderAcceptsTrailing : Bool

/-! ### With a default and an alternative -/

/-- `INDEX_POLICY`, R6: what a register value of 256 or more does when it is used as a memory index. The machine
holds its policy in State, so that every claim over all states covers both (log 7). -/
inductive IndexPolicy where
  /-- The default, R44: the low 8 bits are used. -/
  | truncate
  /-- The alternative, R45: the run ends with INDEX_OUT_OF_RANGE. -/
  | fault
deriving DecidableEq, Repr

end Sys2Proof.Config
end

