-- ==== Sys2Proof/Machine/State.lean ====
section
/-! DEFINITION. The state of the VaporSpec core as plain data (R13 to R38), the reasons a step can stop, and the state
right after reset (R37). -/

namespace Sys2Proof.Machine

open Sys2Proof.Config (IndexPolicy)

/-! ### The parts of the state -/

/-- A data-memory address: "the pair `(s, o)` is the whole address", each an 8-bit index (R39). -/
structure CellAddr where
  /-- The segment, 0 to 255. -/
  seg : BitVec 8
  /-- The offset, 0 to 255. -/
  off : BitVec 8
deriving DecidableEq, Repr

/-- Data memory: the cells that hold something else than an unlisted cell reads as, by the flat key
`segment * 256 + offset` (R39 allows it), keys rising. The unit is the Word: a cell has no bytes (R39, R52; log 17). -/
abbrev Memory := List (Nat × Word)

/-- R27: whether the scheduler still performs cycles. -/
inductive RunStatus where
  /-- RUNNING -/
  | running
  /-- TERMINATED -/
  | terminated
deriving DecidableEq, Repr

/-- R27: why the run ended; NONE while it is running. -/
inductive Cause where
  /-- NONE -/
  | none
  /-- HALT -/
  | halt
  /-- QUIT -/
  | quit
  /-- ILLEGAL_WRITE -/
  | illegalWrite
  /-- FETCH_OUT_OF_RANGE -/
  | fetchOutOfRange
  /-- INDEX_OUT_OF_RANGE, only under the policy `fault` (R45) -/
  | indexOutOfRange
deriving DecidableEq, Repr

/-- What `raise` can raise (R113, R119; the last only under the policy `fault`, R45). -/
inductive Termination where
  /-- R114 -/
  | halt
  /-- R118 -/
  | quit
  /-- R115 -/
  | illegalWrite
  /-- R116 -/
  | fetchOutOfRange
  /-- R45 -/
  | indexOutOfRange
deriving DecidableEq, Repr

/-- R11: the three things that act. -/
inductive Agent where
  /-- The primary context. -/
  | core
  /-- The keyboard worker, the secondary context. -/
  | worker
  /-- The tick timer, an event source. -/
  | timer
deriving DecidableEq, Repr

/-- What the keyboard worker meets on `key_in` (R36, R128, R133). -/
inductive KeyInput where
  /-- One byte of the standard input stream. -/
  | byte (b : Byte)
  /-- The end of the input, or a failed read. -/
  | eof
deriving DecidableEq, Repr

/-! ### The state -/

/-- Everything the spec gives the machine (R37), the arguments of its construction (`code`, `rom`, `indexPolicy`),
its counted output event, and the model's two fields for the environment (`keyIn`, `schedule`; log 2). -/
structure State where
  /-- `x[0]` to `x[15]` (R13). -/
  regs : Vector Word 16
  /-- The program counter, a Word index (R17). -/
  pc : Word
  /-- Data memory `M[s][o]` (R30). -/
  mem : Memory
  /-- R27. -/
  run : RunStatus
  /-- R27. -/
  cause : Cause
  /-- R27: a status once the run has ended; before that it is "not meaningful" and there is none (log 16). -/
  exitStatus : Option Nat
  /-- R27: the diagnostic events emitted, oldest first. -/
  diag : List Cause
  /-- The keyboard queue, oldest value first (R33). -/
  keyq : List Byte
  /-- R34. -/
  tickPending : Bool
  /-- R35. -/
  kbdStopped : Bool
  /-- How often the display-refresh hook was invoked (R135, R136; log 18). -/
  displayRefreshes : Nat
  /-- The code store (R31). -/
  code : List Word
  /-- The ROM image the machine was constructed from (R37). -/
  rom : List Word
  /-- The machine's INDEX_POLICY (R6, log 7). -/
  indexPolicy : IndexPolicy
  /-- The environment: what is still unread on `key_in` (R36, R128; log 2). -/
  keyIn : List KeyInput
  /-- The environment: which agents move next, in order; when it is empty the core moves (R139; log 2). -/
  schedule : List Agent
deriving DecidableEq, Repr

/-! ### How a step can stop -/

/-- Why a step answers a fault: the run has ENDED in a state the spec calls a fault (R149). The termination itself is
a next state with cause and status recorded; the fault is what the step after it answers (log 1). All three are safe:
the spec gives the machine no further cycle. -/
inductive Fault where
  /-- Raised by `step` on a state that ended with ILLEGAL_WRITE (R115, R149). Safe. -/
  | illegalWrite
  /-- Raised by `step` on a state that ended with FETCH_OUT_OF_RANGE (R116, R149). Safe. -/
  | fetchOutOfRange
  /-- Raised by `step` on a state that ended with INDEX_OUT_OF_RANGE, policy `fault` (R45, R149). Safe. -/
  | indexOutOfRange
deriving DecidableEq, Repr

/-- Why something is refused. -/
inductive Refusal where
  /-- Raised by `exec` for an instruction without a meaning; no arm of this model raises it. Safe. -/
  | notModelled (mnemonic : String)
  /-- Raised by `construct` for a code sequence of more than 65536 Words (R152, D21). Safe. -/
  | codeTooLong
  /-- Raised by `construct` for a ROM image of more than 32768 Words (R48, R152, D11). Safe. -/
  | romTooLong
deriving DecidableEq, Repr

/-! ### Reset -/

/-- The state after construction (R37), for an empty `code`, an empty `rom` and the default policy, with a silent
environment: no program is invented (log 3), and `Machine.construct` is reset with a program. -/
def State.reset : State :=
  { regs := Vector.replicate 16 0#16
    pc := Config.resetPc
    mem := []
    run := .running
    cause := .none
    exitStatus := none
    diag := []
    keyq := []
    tickPending := false
    kbdStopped := false
    displayRefreshes := 0
    code := []
    rom := []
    indexPolicy := .truncate
    keyIn := []
    schedule := [] }

end Sys2Proof.Machine
end

