-- ==== Sys2Proof/Machine/Ops.lean ====
section
/-! DEFINITION. The named operations over registers, memory, pc and run state: the pseudocode primitives of
`00_scope.md` (after R9), and `raise`, the only trap entry (R119). There is no return beside it: nothing resumes after a
termination (R121). -/

namespace Sys2Proof.Machine

/-! ### Registers (R13, R14: sixteen ordinary registers, none hardwired) -/

/-- `x[r]`. -/
def State.readReg (s : State) (r : RegIx) : Word := s.regs[r.val]

/-- `x[r] <- v`. -/
def State.writeReg (s : State) (r : RegIx) (v : Word) : State := { s with regs := s.regs.set r.val v }

/-! ### Data memory (R39 to R48) -/

/-- What a cell that is not listed reads as: 0 (R37, R48). -/
def Memory.unlisted : Word := 0#16

/-- The flat key of a cell (R39). -/
def CellAddr.key (a : CellAddr) : Nat := a.seg.toNat * Config.segLen + a.off.toNat

/-- The Word listed under a key, or what an unlisted cell reads as. -/
def Memory.lookup : Memory → Nat → Word
  | [], _ => Memory.unlisted
  | (k, v) :: rest, key => if k = key then v else Memory.lookup rest key

/-- The memory with one key's Word changed, in canonical form. -/
def Memory.update : Memory → Nat → Word → Memory
  | [], key, v => if v = Memory.unlisted then [] else [(key, v)]
  | (k, u) :: rest, key, v =>
    if key < k then (if v = Memory.unlisted then (k, u) :: rest else (key, v) :: (k, u) :: rest)
    else if key = k then (if v = Memory.unlisted then rest else (key, v) :: rest)
    else (k, u) :: Memory.update rest key v

/-- `MemRead((s, o), 1)`: never faults, permitted for every segment (R46). -/
def Memory.read (m : Memory) (a : CellAddr) : Word := Memory.lookup m a.key

/-- `MemWrite((s, o), 1, v)` (R47). STR makes its protection check before it comes here (R103). -/
def Memory.write (m : Memory) (a : CellAddr) (v : Word) : Memory := Memory.update m a.key v

/-- The canonical form: keys strictly rising, each the key of a cell, no entry that an unlisted cell reads as. -/
abbrev Memory.wf (m : Memory) : Prop :=
  List.Pairwise (fun x y => x.1 < y.1) m ∧
    ∀ c ∈ m, c.1 < Config.nSeg * Config.segLen ∧ c.2 ≠ Memory.unlisted

/-- One cell of the state's memory. -/
def State.readCell (s : State) (a : CellAddr) : Word := s.mem.read a

/-- The state with one cell written. -/
def State.writeCell (s : State) (a : CellAddr) (v : Word) : State := { s with mem := s.mem.write a v }

/-! ### Program counter (R17 to R21) -/

/-- `pc <- v`. -/
def State.setPc (s : State) (v : Word) : State := { s with pc := v }

/-- `pc <- (pc + 1) mod 65536` (R19). -/
def State.advancePc (s : State) : State := s.setPc (s.pc + 1#16)

/-- `CodeRead(a)` (R50); `none` where it is not defined, at `a >= len(code)`. The code store does not wrap (R21). -/
def codeRead (code : List Word) (a : Word) : Option Word := code[a.toNat]?

/-! ### Terminations (R113 to R119) -/

/-- The cause a termination records (R119). -/
def Termination.cause : Termination → Cause
  | .halt => .halt
  | .quit => .quit
  | .illegalWrite => .illegalWrite
  | .fetchOutOfRange => .fetchOutOfRange
  | .indexOutOfRange => .indexOutOfRange

/-- The exit status a termination records (R114, R115, R118); two of them are free values (R116, R45; log 4, 5). -/
def Termination.status : Termination → Nat
  | .halt => Config.statusHalt
  | .quit => Config.statusQuit
  | .illegalWrite => Config.statusIllegalWrite
  | .fetchOutOfRange => Config.fetchFaultStatus
  | .indexOutOfRange => Config.indexFaultStatus

/-- The diagnostic events a termination emits: one for IllegalWrite, none for the others (R119, R148; log 19). -/
def Termination.diagnostics : Termination → List Cause
  | .illegalWrite => [.illegalWrite]
  | .halt | .quit | .fetchOutOfRange | .indexOutOfRange => []

/-- `raise T(info)`, the only trap entry (R119): nothing but the run state is written, nothing is saved, control goes
nowhere; the info is recorded nowhere. -/
def State.raise (s : State) (t : Termination) : State :=
  { s with
    run := .terminated
    cause := t.cause
    exitStatus := some t.status
    diag := s.diag ++ t.diagnostics }

/-- R149: a terminated state with cause HALT or QUIT is a successful end; with one of the other causes it is a
fault. -/
def Cause.fault : Cause → Option Fault
  | .none | .halt | .quit => .none
  | .illegalWrite => some .illegalWrite
  | .fetchOutOfRange => some .fetchOutOfRange
  | .indexOutOfRange => some .indexOutOfRange

end Sys2Proof.Machine
end

