-- ==== Sys2Proof/Machine/Operands.lean ====
section
/-! DEFINITION. Operand forms: register operands are indices of `State.readReg`; here stand the immediate (R66), the
register that LSL and LSR shift (R83, R84), the shift itself (R9), the memory address (R44, R45, R101) and the jump target
(R93). -/

namespace Sys2Proof.Machine

/-- `zext_16(imm8)` (R66): the same number as a Word. -/
def zext16 (imm8 : BitVec 8) : Word := imm8.setWidth 16

/-- The register LSL shifts, `x[arg0]` with `arg0 = 3` (R83). UNVERIFIED (the spec's own decision D6, log 10). -/
def lslReg : RegIx := 3

/-- The register LSR shifts, `x[arg0]` with `arg0 = 4` (R84). UNVERIFIED (the spec's own decision D6, log 10). -/
def lsrReg : RegIx := 4

/-- `v << n = (v * 2^n) mod 65536`, for the whole register value `n` (R9, R83; decision D7, log 11). -/
def shiftLeft (v n : Word) : Word := v <<< n.toNat

/-- `v >> n = floor(v / 2^n)`, for the whole register value `n` (R9, R84; decision D7, log 11). -/
def shiftRight (v n : Word) : Word := v >>> n.toNat

/-- `idx8(v) = v mod 256` (R44). -/
def idx8 (v : Word) : BitVec 8 := v.setWidth 8

/-- The cell that a segment value and an offset value name: their low 8 bits (R44, R101); under the policy `fault` no
cell when either value is 256 or more (R45). -/
def cellAddress (policy : Config.IndexPolicy) (seg off : Word) : Option CellAddr :=
  match policy with
  | .truncate => some { seg := idx8 seg, off := idx8 off }
  | .fault =>
    if Config.nSeg ≤ seg.toNat ∨ Config.segLen ≤ off.toNat then none
    else some { seg := idx8 seg, off := idx8 off }

/-- STR's protection check, on the full 16-bit value of the segment register, before any index is formed
(R47, R103; decision D5, log 8). -/
def readOnlySegment (seg : Word) : Bool := decide (Config.romBase ≤ seg.toNat)

/-- The value `JumpTo` writes to the pc: `(x[s] * 256 + x[o] - 1) mod 65536`, whole register values (R93; decisions D8
and D9, log 12). -/
def jumpTarget (seg off : Word) : Word := seg * 256#16 + off - 1#16

/-- `JumpTo(s, o)` (R93). -/
def State.jumpTo (s : State) (rs ro : RegIx) : State := s.setPc (jumpTarget (s.readReg rs) (s.readReg ro))

end Sys2Proof.Machine
end

