-- ==== Sys2Proof/Machine/Arithmetic.lean ====
section
/-! DEFINITION. ADD, SUB, ADDC, SUBC (`41_arithmetic.md`): addition and subtraction of Words modulo 65536, without flags
and without a trap (R9, R25, R91). -/

namespace Sys2Proof.Machine

open Host (Outcome)

/-- ADD (R87): `x[arg0] <- (x[arg1] + x[arg2]) mod 65536`. -/
def execAdd (rd ra rb : RegIx) (s : State) : Outcome State Fault Refusal :=
  .next (s.writeReg rd (s.readReg ra + s.readReg rb))

/-- SUB (R88): `x[arg0] <- (x[arg1] - x[arg2]) mod 65536`. -/
def execSub (rd ra rb : RegIx) (s : State) : Outcome State Fault Refusal :=
  .next (s.writeReg rd (s.readReg ra - s.readReg rb))

/-- ADDC (R89): `x[arg0] <- (x[arg0] + zext_16(imm8)) mod 65536`. -/
def execAddc (rd : RegIx) (imm8 : BitVec 8) (s : State) : Outcome State Fault Refusal :=
  .next (s.writeReg rd (s.readReg rd + zext16 imm8))

/-- SUBC (R90): `x[arg0] <- (x[arg0] - zext_16(imm8)) mod 65536`. -/
def execSubc (rd : RegIx) (imm8 : BitVec 8) (s : State) : Outcome State Fault Refusal :=
  .next (s.writeReg rd (s.readReg rd - zext16 imm8))

end Sys2Proof.Machine
end

