-- ==== Sys2Proof/Machine/Bitwise.lean ====
section
/-! DEFINITION. AND, OR, XOR (`44_bitwise.md`): bit by bit on whole Words, no flags (R109). -/

namespace Sys2Proof.Machine

open Host (Outcome)

/-- AND (R106): `x[arg0] <- x[arg1] & x[arg2]`. -/
def execAnd (rd ra rb : RegIx) (s : State) : Outcome State Fault Refusal :=
  .next (s.writeReg rd (s.readReg ra &&& s.readReg rb))

/-- OR (R107): `x[arg0] <- x[arg1] | x[arg2]`. -/
def execOr (rd ra rb : RegIx) (s : State) : Outcome State Fault Refusal :=
  .next (s.writeReg rd (s.readReg ra ||| s.readReg rb))

/-- XOR (R108): `x[arg0] <- x[arg1] ^ x[arg2]`. -/
def execXor (rd ra rb : RegIx) (s : State) : Outcome State Fault Refusal :=
  .next (s.writeReg rd (s.readReg ra ^^^ s.readReg rb))

end Sys2Proof.Machine
end

