-- ==== Sys2Proof/Machine/Flags.lean ====
section
/-! DEFINITION. The three-valued comparison and its tests (R24). There is no flags register: CMP leaves its result in a
general register, and nothing else computes a flag (R25). -/

namespace Sys2Proof.Machine

/-- R95: 0, 2 or 1 as the left Word is less than, greater than or equal to the right one, as unsigned numbers. -/
def compareFlag (a b : Word) : Word :=
  if a.toNat < b.toNat then Config.flagLT
  else if b.toNat < a.toNat then Config.flagGT
  else Config.flagEQ

/-- JLT's test, on the whole Word (R96, R99). -/
def saysLess (v : Word) : Bool := v == Config.flagLT

/-- JGT's test, on the whole Word (R97, R99). -/
def saysGreater (v : Word) : Bool := v == Config.flagGT

/-- JEQ's test, on the whole Word (R98, R99). -/
def saysEqual (v : Word) : Bool := v == Config.flagEQ

end Sys2Proof.Machine
end

