-- ==== Sys2Proof/Machine/CompareBranch.lean ====
section
/-! DEFINITION. CMP and the conditional jumps JLT, JGT, JEQ (`42_compare_branch.md`). -/

namespace Sys2Proof.Machine

open Host (Outcome)

/-- CMP (R95): 0, 1 or 2 into `x[arg0]`. -/
def execCmp (rf ra rb : RegIx) (s : State) : Outcome State Fault Refusal :=
  .next (s.writeReg rf (compareFlag (s.readReg ra) (s.readReg rb)))

/-- JLT (R96): `if x[arg0] == 0: JumpTo(arg1, arg2)`. -/
def execJlt (rf rs ro : RegIx) (s : State) : Outcome State Fault Refusal :=
  .next (if saysLess (s.readReg rf) then s.jumpTo rs ro else s)

/-- JGT (R97): `if x[arg0] == 2: JumpTo(arg1, arg2)`. -/
def execJgt (rf rs ro : RegIx) (s : State) : Outcome State Fault Refusal :=
  .next (if saysGreater (s.readReg rf) then s.jumpTo rs ro else s)

/-- JEQ (R98): `if x[arg0] == 1: JumpTo(arg1, arg2)`. -/
def execJeq (rf rs ro : RegIx) (s : State) : Outcome State Fault Refusal :=
  .next (if saysEqual (s.readReg rf) then s.jumpTo rs ro else s)

end Sys2Proof.Machine
end

