-- ==== Sys2Proof/Machine/Extended.lean ====
section
/-! DEFINITION. The extended group, opcode 0x0: HALT, CPY, NOT, LSL, LSR, JMP, NOP (`40_extended.md`). Each is the execute
part alone; the step adds 1 to the pc afterwards while the run goes on (R19, R22). -/

namespace Sys2Proof.Machine

open Host (Outcome)

/-- HALT (R80): `raise Halt()`. -/
def execHalt (s : State) : Outcome State Fault Refusal := .next (s.raise .halt)

/-- CPY (R81): `x[arg1] <- x[arg2]`. -/
def execCpy (rd rs : RegIx) (s : State) : Outcome State Fault Refusal := .next (s.writeReg rd (s.readReg rs))

/-- NOT (R82): `x[arg1] <- ~x[arg2]`. -/
def execNot (rd rs : RegIx) (s : State) : Outcome State Fault Refusal := .next (s.writeReg rd (~~~ (s.readReg rs)))

/-- LSL (R83): `x[3] <- (x[3] * 2^n) mod 65536`, `n = x[arg1]`. -/
def execLsl (rn : RegIx) (s : State) : Outcome State Fault Refusal :=
  .next (s.writeReg lslReg (shiftLeft (s.readReg lslReg) (s.readReg rn)))

/-- LSR (R84): `x[4] <- floor(x[4] / 2^n)`, `n = x[arg1]`. -/
def execLsr (rn : RegIx) (s : State) : Outcome State Fault Refusal :=
  .next (s.writeReg lsrReg (shiftRight (s.readReg lsrReg) (s.readReg rn)))

/-- JMP (R85): `JumpTo(arg1, arg2)`. -/
def execJmp (rs ro : RegIx) (s : State) : Outcome State Fault Refusal := .next (s.jumpTo rs ro)

/-- NOP (R86): "no effect". -/
def execNop (s : State) : Outcome State Fault Refusal := .next s

end Sys2Proof.Machine
end

