-- ==== Sys2Proof/Machine/LoadStore.lean ====
section
/-! DEFINITION. LDR, STR, LRC (`43_load_store.md`), under both values of INDEX_POLICY (R44, R45). -/

namespace Sys2Proof.Machine

open Host (Outcome)

/-- LDR (R102): `x[arg0] <- MemRead((s, o), 1)`; under the policy `fault` an index of 256 or more ends the run
instead (R45). -/
def execLdr (rd rs ro : RegIx) (s : State) : Outcome State Fault Refusal :=
  match cellAddress s.indexPolicy (s.readReg rs) (s.readReg ro) with
  | some a => .next (s.writeReg rd (s.readCell a))
  | none => .next (s.raise .indexOutOfRange)

/-- STR (R103): the protection check on the whole segment value first (R123), then the store; under the policy `fault`
an offset of 256 or more ends the run instead (R45). -/
def execStr (rv rs ro : RegIx) (s : State) : Outcome State Fault Refusal :=
  if readOnlySegment (s.readReg rs) then .next (s.raise .illegalWrite)
  else
    match cellAddress s.indexPolicy (s.readReg rs) (s.readReg ro) with
    | some a => .next (s.writeCell a (s.readReg rv))
    | none => .next (s.raise .indexOutOfRange)

/-- LRC (R104): `x[arg0] <- zext_16(imm8)`. -/
def execLrc (rd : RegIx) (imm8 : BitVec 8) (s : State) : Outcome State Fault Refusal :=
  .next (s.writeReg rd (zext16 imm8))

end Sys2Proof.Machine
end

