-- ==== Sys2Proof/Machine/Unmapped.lean ====
section
/-! DEFINITION. The unmapped encodings (`45_unmapped.md`): "unmapped codes are no-ops by omission"; nothing traps and
nothing is refused (R72, R112). -/

namespace Sys2Proof.Machine

open Host (Outcome)

/-- Opcode 0x0 with `arg0 = 7` (R110): nothing. -/
def execUnmappedExt7 (s : State) : Outcome State Fault Refusal := .next s

/-- Opcode 0x0 with `arg0 = 8 .. 15` (R110): nothing. -/
def execUnmappedExt8F (s : State) : Outcome State Fault Refusal := .next s

/-- Opcode 0xF (R111): nothing. -/
def execUnmappedF (s : State) : Outcome State Fault Refusal := .next s

end Sys2Proof.Machine
end

