-- ==== Sys2Proof/Machine/Dispatch.lean ====
section
/-! DEFINITION. `execute(opcode, arg0, arg1, arg2)` of R22: one arm per row of the opcode table (R69, R72), each a call
of that instruction's meaning. Ignored fields reach no meaning (R71). -/

namespace Sys2Proof.Machine

def exec (i : Instr) (s : State) : Host.Outcome State Fault Refusal :=
  match i with
  -- extended group (R79)
  | .halt _ => Sys2Proof.Machine.execHalt s
  | .cpy rd rs => Sys2Proof.Machine.execCpy rd rs s
  | .not rd rs => Sys2Proof.Machine.execNot rd rs s
  | .lsl rn _ => Sys2Proof.Machine.execLsl rn s
  | .lsr rn _ => Sys2Proof.Machine.execLsr rn s
  | .jmp rs ro => Sys2Proof.Machine.execJmp rs ro s
  | .nop _ => Sys2Proof.Machine.execNop s
  -- arithmetic
  | .add rd ra rb => Sys2Proof.Machine.execAdd rd ra rb s
  | .sub rd ra rb => Sys2Proof.Machine.execSub rd ra rb s
  | .addc rd imm8 => Sys2Proof.Machine.execAddc rd imm8 s
  | .subc rd imm8 => Sys2Proof.Machine.execSubc rd imm8 s
  -- comparison and conditional jumps
  | .cmp rf ra rb => Sys2Proof.Machine.execCmp rf ra rb s
  | .jlt rf rs ro => Sys2Proof.Machine.execJlt rf rs ro s
  | .jgt rf rs ro => Sys2Proof.Machine.execJgt rf rs ro s
  | .jeq rf rs ro => Sys2Proof.Machine.execJeq rf rs ro s
  -- loads and stores
  | .ldr rd rs ro => Sys2Proof.Machine.execLdr rd rs ro s
  | .str rv rs ro => Sys2Proof.Machine.execStr rv rs ro s
  | .lrc rd imm8 => Sys2Proof.Machine.execLrc rd imm8 s
  -- bitwise
  | .and rd ra rb => Sys2Proof.Machine.execAnd rd ra rb s
  | .or rd ra rb => Sys2Proof.Machine.execOr rd ra rb s
  | .xor rd ra rb => Sys2Proof.Machine.execXor rd ra rb s
  -- unmapped encodings (R72)
  | .unmappedExt7 _ => Sys2Proof.Machine.execUnmappedExt7 s
  | .unmappedExt8F _ _ => Sys2Proof.Machine.execUnmappedExt8F s
  | .unmappedF _ => Sys2Proof.Machine.execUnmappedF s

end Sys2Proof.Machine
end

