-- ==== Sys2Proof/Machine/Scheduler.lean ====
section
/-! DEFINITION. What each of the three agents does in one step (R11): the core's scheduler cycle (R125) with the
instruction step in it (R22), the keyboard worker's step (R128, R133) and the timer's (R134); and whose turn it is. -/

namespace Sys2Proof.Machine

open Host (Outcome)

/-! ### The instruction step (R22) -/

/-- The increment after `execute`: only if no termination was raised (R19, R22; decision D10, log 14). -/
def afterExecute : Outcome State Fault Refusal → Outcome State Fault Refusal
  | .next s =>
    match s.run with
    | .running => .next s.advancePc
    | .terminated => .next s
  | .fault r => .fault r
  | .refused r => .refused r

/-- R22: the range test, fetch, decode, execute, increment. A fetch outside the code raises FetchOutOfRange and changes
nothing else (R116; decision D3, log 15). -/
def instructionStep (s : State) : Outcome State Fault Refusal :=
  match codeRead s.code s.pc with
  | none => .next (s.raise .fetchOutOfRange)
  | some w => afterExecute (exec (decode w) s)

/-! ### The scheduler cycle (R125) -/

/-- A keyboard value is consumed: the quit code raises Quit (R130), any other value has no effect (R131). -/
def consumeKey (k : Byte) (rest : List Byte) (s : State) : State :=
  if k = Config.quitCode then State.raise { s with keyq := rest } .quit else { s with keyq := rest }

/-- The tick is serviced: the pending bit is cleared and the display-refresh hook invoked (R135, R136). -/
def serviceTick (s : State) : State :=
  { s with tickPending := false, displayRefreshes := s.displayRefreshes + 1 }

/-- R125: one cycle does exactly one of three things, in fixed priority (R126). -/
def coreCycle (s : State) : Outcome State Fault Refusal :=
  match s.keyq with
  | k :: rest => .next (consumeKey k rest s)
  | [] => if s.tickPending then .next (serviceTick s) else instructionStep s

/-! ### The keyboard worker and the timer -/

/-- Whether a queue that holds `n` values has room for one more (R129): the capacity is at least 1 (R6). -/
def queueHasRoom : Nat → Bool
  | 0 => true
  | n + 1 =>
    match Config.keyqDepth with
    | .unbounded => true
    | .bounded extra => decide (n + 1 ≤ extra)

/-- R128, R133: a stopped worker does nothing; with nothing to read, or a byte and no room in the queue, it waits; a
byte is appended, and the quit code is the last one; at the end of input it stops. A turn in which it waits changes
nothing (log 25). DESIGN CHOICE: it meets the end of input, which needs no room, with a full queue too (log 29). -/
def workerStep (s : State) : State :=
  if s.kbdStopped then s
  else
    match s.keyIn with
    | [] => s
    | .eof :: rest => { s with keyIn := rest, kbdStopped := true }
    | .byte b :: rest =>
      if queueHasRoom s.keyq.length then
        { s with keyIn := rest, keyq := s.keyq ++ [b], kbdStopped := b == Config.quitCode }
      else s

/-- R134: the period has elapsed; a tick that is still pending stays one tick. -/
def timerStep (s : State) : State := { s with tickPending := true }

/-! ### Whose turn it is (R139) -/

/-- The agent that moves next; with nothing scheduled it is the core (R127; log 2). -/
def State.nextAgent (s : State) : Agent := s.schedule.headD .core

/-- The state with that turn taken off the schedule. -/
def State.takeTurn (s : State) : State := { s with schedule := s.schedule.tail }

/-- One agent's step, while the run goes on. -/
def agentStep (a : Agent) (s : State) : Outcome State Fault Refusal :=
  match a with
  | .core => coreCycle s
  | .worker => .next (workerStep s)
  | .timer => .next (timerStep s)

/-- After the end no agent has a step: a successful end stays as it is, a faulted one answers its fault (R149; log 1). -/
def afterEnd (s : State) : Outcome State Fault Refusal :=
  match s.cause.fault with
  | none => .next s
  | some r => .fault r

/-! ### Placing a word where the next fetch reads -/

/-- The code with `w` at index `k`: the other words stay; a code too short for index `k` is filled up with zeros. -/
def placeWord (code : List Word) (k : Nat) (w : Word) : List Word :=
  code.take k ++ List.replicate (k - code.length) 0#16 ++ w :: code.drop (k + 1)

end Sys2Proof.Machine
end

