-- ==== Sys2Proof/Machine/Step.lean ====
section
/-! DEFINITION. The one step of the machine: the agent whose turn it is moves, at the granularity of a scheduler cycle
(R11, R125, R139), while the run goes on (R149). -/

namespace Sys2Proof.Machine

/-- One step: the scheduled agent's, or none after the end. -/
def step (s : State) : Host.Outcome State Fault Refusal :=
  match s.run with
  | .running => agentStep s.nextAgent s.takeTurn
  | .terminated => afterEnd s

/-- The state in which the very next step is the instruction step that fetches the word `w` (its low `nbits` bits): the
word stands in the code at the pc, the run is going on, and it is the core's turn with no key and no tick waiting
(R22, R125). It stands for loading a program from outside (log 3). -/
def State.withFetchWord (s : State) (nbits w : Nat) : State :=
  { s with
    code := placeWord s.code s.pc.toNat (BitVec.ofNat 16 (w % 2 ^ nbits))
    run := .running
    cause := .none
    exitStatus := none
    keyq := []
    tickPending := false
    schedule := [] }

end Sys2Proof.Machine
end

