-- ==== Sys2Proof/Machine/Construct.lean ====
section
/-! DEFINITION. Construction, which is the reset (R151, R152), the loader's file format in front of it (R158, outside the
core), and the environment beside it (R36). -/

namespace Sys2Proof.Machine

open Host (Outcome)

/-! ### Construction (R152) -/

/-- The cell that word `i` of the ROM image fills: `M[128 + (i >> 8)][i & 255]` (R48; decision D11, log 9). -/
def romCell (i : Nat) : CellAddr :=
  { seg := BitVec.ofNat 8 (Config.romBase + i / Config.segLen), off := BitVec.ofNat 8 (i % Config.segLen) }

/-- The writes of R152 that place the image, from word `i` on. -/
def placeRom : Nat → List Word → Memory → Memory
  | _, [], m => m
  | i, w :: rest, m => placeRom (i + 1) rest (m.write (romCell i) w)

/-- R152: `Construct(code, rom)` for a machine of the given INDEX_POLICY. Over-long inputs are refused by name
(decisions D21 and D11, log 28). -/
def construct (policy : Config.IndexPolicy) (code rom : List Word) : Outcome State Fault Refusal :=
  if Config.maxCodeLen < code.length then .refused .codeTooLong
  else if Config.maxRomLen < rom.length then .refused .romTooLong
  else
    .next { State.reset with
              code := code
              rom := rom
              mem := placeRom 0 rom State.reset.mem
              indexPolicy := policy }

/-- The word of the ROM image that a cell of segments 128 to 255 holds, 0 where the image has none (R37, R48). -/
def romWord (rom : List Word) (a : CellAddr) : Word :=
  (rom[(a.seg.toNat - Config.romBase) * Config.segLen + a.off.toNat]?).getD Memory.unlisted

/-- The state with its environment given: what will be read on `key_in`, and who moves when (R36, R139; log 2). -/
def State.withEnvironment (s : State) (keyIn : List KeyInput) (schedule : List Agent) : State :=
  { s with keyIn := keyIn, schedule := schedule }

/-! ### The loader's file format (R158) -/

/-- What reading one file comes to. -/
inductive LoadResult where
  /-- The word sequence handed to the core. -/
  | words (ws : List Word)
  /-- `LoadError` (R117): fatal before the core exists. -/
  | loadError
deriving DecidableEq, Repr

/-- The payload as words, each two bytes, high byte first (R158). -/
def payloadWords : List Byte → List Word
  | hi :: lo :: rest => (hi ++ lo) :: payloadWords rest
  | _ => []

/-- R158: a two-byte count `N`, low byte first, then `N` words. Fewer than `2N` payload bytes are a LoadError; whether
more are is not stated and free (N24; log 23). -/
def loadFile : List Byte → LoadResult
  | b0 :: b1 :: payload =>
    let bytes := 2 * (b0.toNat + 256 * b1.toNat)
    if payload.length < bytes then .loadError
    else if bytes < payload.length && !Config.loaderAcceptsTrailing then .loadError
    else .words (payloadWords (payload.take bytes))
  | _ => .loadError

/-- R158, read the other way: the file that holds a word sequence. -/
def fileImage (ws : List Word) : List Byte :=
  BitVec.ofNat 8 (ws.length % 256) :: BitVec.ofNat 8 (ws.length / 256) ::
    ws.flatMap (fun w => [w.extractLsb' 8 8, w.extractLsb' 0 8])

end Sys2Proof.Machine
end

