-- ==== Sys2Proof/Safety.lean ====
section
/-! DEFINITION. The terms in which claims speak of states and runs: when the next step is an instruction step, what may
differ between two states, good and faulted ends (R149), and the invariants of the machine. -/

namespace Sys2Proof.Machine

/-! ### Whose step comes next -/

/-- It is the core's turn and the run is going on: the next step is a scheduler cycle (R125). -/
abbrev State.coresTurn (s : State) : Prop := s.run = .running ∧ s.nextAgent = .core

/-- Besides, no key and no tick is waiting: the next step is an instruction step (R22, R126). -/
abbrev State.ready (s : State) : Prop := s.coresTurn ∧ s.keyq = [] ∧ s.tickPending = false

/-- The Word the next fetch reads is `w`. -/
abbrev State.fetches (s : State) (w : Word) : Prop := codeRead s.code s.pc = some w

/-! ### What may differ between two states (frames) -/

/-- Every field but the registers is the same, and so is every register but `r`. -/
def OnlyRegister (r : RegIx) (s t : State) : Prop :=
  t = { s with regs := t.regs } ∧ ∀ q, q ≠ r → t.readReg q = s.readReg q

/-- Every field but the pc is the same. -/
def OnlyPc (s t : State) : Prop := t = { s with pc := t.pc }

/-- Every field but data memory is the same, and so is every cell but `a`. -/
def OnlyCell (a : CellAddr) (s t : State) : Prop :=
  t = { s with mem := t.mem } ∧ ∀ b, b ≠ a → t.readCell b = s.readCell b

/-- Every field but the four of R27 is the same. -/
def OnlyRunState (s t : State) : Prop :=
  t = { s with run := t.run, cause := t.cause, exitStatus := t.exitStatus, diag := t.diag }

/-- Registers, data memory and pc are the same: what a program can tell apart. -/
def SameProgramState (s t : State) : Prop := t.regs = s.regs ∧ t.mem = s.mem ∧ t.pc = s.pc

/-! ### Ends of a run (R149) -/

/-- A successful end. -/
def State.endedWell (s : State) : Prop := s.run = .terminated ∧ (s.cause = .halt ∨ s.cause = .quit)

/-- A faulted end, never a successful one (R116, R149). -/
def State.faulted (s : State) : Prop := s.run = .terminated ∧ s.cause.fault ≠ none

/-- No fault within `k` steps. -/
def SafeRun (k : Nat) (s : State) : Prop := ∀ r, Sys2Proof.core.run k s ≠ .fault r

/-! ### Invariants -/

/-- Data memory is in its canonical form. -/
abbrev MemoryCanonical (s : State) : Prop := s.mem.wf

/-- R27, R114 to R119: while running there is no cause, no status and no diagnostic; after the end, cause, status and
diagnostics are those of one termination. -/
def RunStateConsistent (s : State) : Prop :=
  match s.run with
  | .running => s.cause = .none ∧ s.exitStatus = none ∧ s.diag = []
  | .terminated => ∃ t : Termination, s.cause = t.cause ∧ s.exitStatus = some t.status ∧ s.diag = t.diagnostics

/-- R128, R132: a quit code in the queue is the last value in it, and the worker has stopped. -/
def QuitCodeLast (s : State) : Prop :=
  Config.quitCode ∉ s.keyq.dropLast ∧ (Config.quitCode ∈ s.keyq → s.kbdStopped = true)

/-- R129: the queue never holds more than its capacity. -/
def QueueWithinCapacity (s : State) : Prop := ∀ n, s.keyq.length = n + 1 → queueHasRoom n = true

/-- R41, R48: every cell of segments 128 to 255 holds its word of the ROM image. -/
def RomHoldsImage (s : State) : Prop :=
  ∀ a : CellAddr, Config.romBase ≤ a.seg.toNat → s.readCell a = romWord s.rom a

/-- R152: `code` and `rom` are no longer than construction admits. -/
def InputsFit (s : State) : Prop := s.code.length ≤ Config.maxCodeLen ∧ s.rom.length ≤ Config.maxRomLen

/-- All invariants of the machine. -/
structure WellFormedState (s : State) : Prop where
  /-- canonical memory -/
  memory : MemoryCanonical s
  /-- run state -/
  runState : RunStateConsistent s
  /-- keyboard queue -/
  quitLast : QuitCodeLast s
  /-- keyboard queue -/
  capacity : QueueWithinCapacity s
  /-- ROM region -/
  rom : RomHoldsImage s
  /-- construction inputs -/
  inputs : InputsFit s

end Sys2Proof.Machine
end

