-- ==== Sys2Proof/Certificates/Slice0/Obligations.lean ====
section
/-! DEFINITION. The statements for the provers. Results are stated in the numbers of the rules (sums and products modulo
65536, single bits), not in the model's own operations, and every instruction's statement carries its word, written
from the pattern of R69 as a number, and its frame. A statement that rests on one of the spec's own decisions (D<n>) or
on a choice of the model (log <n>) says so. -/

open Sys2Proof Sys2Proof.Machine

/-! ### Words, written as the numbers of the patterns of R69 and R72 -/

/-- `oooo aaaa bbbb cccc` with three register fields. -/
def Sys2Proof.Claims.wordR3 (opcode : Nat) (a b c : RegIx) : Word :=
  BitVec.ofNat 16 (opcode * 4096 + a.val * 256 + b.val * 16 + c.val)

/-- `oooo aaaa iiii iiii`. -/
def Sys2Proof.Claims.wordRI (opcode : Nat) (a : RegIx) (imm8 : BitVec 8) : Word :=
  BitVec.ofNat 16 (opcode * 4096 + a.val * 256 + imm8.toNat)

/-- `0000 ssss bbbb cccc` with two register fields. -/
def Sys2Proof.Claims.wordX2 (sub : Nat) (b c : RegIx) : Word :=
  BitVec.ofNat 16 (sub * 256 + b.val * 16 + c.val)

/-- `0000 ssss bbbb xxxx` with one register field. -/
def Sys2Proof.Claims.wordX1 (sub : Nat) (b : RegIx) (ignored : BitVec 4) : Word :=
  BitVec.ofNat 16 (sub * 256 + b.val * 16 + ignored.toNat)

/-- `0000 ssss xxxx xxxx`. -/
def Sys2Proof.Claims.wordN (sub : Nat) (ignored : BitVec 8) : Word :=
  BitVec.ofNat 16 (sub * 256 + ignored.toNat)

/-- The three unmapped blocks, by match and mask (R72). -/
def Sys2Proof.Claims.unmapped (w : Word) : Prop :=
  w &&& 0xFF00#16 = 0x0700#16 ∨ w &&& 0xF800#16 = 0x0800#16 ∨ w &&& 0xF000#16 = 0xF000#16

/-- When an instruction jumps (R85, R96 to R98). -/
def Sys2Proof.Claims.takesJump (i : Instr) (s : State) : Prop :=
  match i with
  | .jmp _ _ => True
  | .jlt rf _ _ => (s.readReg rf).toNat = 0
  | .jgt rf _ _ => (s.readReg rf).toNat = 2
  | .jeq rf _ _ => (s.readReg rf).toNat = 1
  | .halt _ | .cpy _ _ | .not _ _ | .lsl _ _ | .lsr _ _ | .nop _ | .add _ _ _ | .sub _ _ _ | .addc _ _
  | .subc _ _ | .cmp _ _ _ | .ldr _ _ _ | .str _ _ _ | .lrc _ _ | .and _ _ _ | .or _ _ _ | .xor _ _ _
  | .unmappedExt7 _ | .unmappedExt8F _ _ | .unmappedF _ => False

/-- The cell the low 8 bits of two register values name (R44, R101). -/
def Sys2Proof.Claims.cellOf (seg off : Word) : CellAddr :=
  { seg := BitVec.ofNat 8 (seg.toNat % 256), off := BitVec.ofNat 8 (off.toNat % 256) }

/-- The state after the run ended with a cause and a status, everything else as before; the diagnostics of `t` are
stated apart. -/
def Sys2Proof.Claims.endedBy (c : Cause) (status : Nat) (s t : State) : Prop :=
  OnlyRunState s t ∧ t.run = .terminated ∧ t.cause = c ∧ t.exitStatus = some status

open Sys2Proof.Claims

/-! ### Encoding -/

/-- R64: the four fields are `w[15:12]`, `w[11:8]`, `w[7:4]`, `w[3:0]`; and they reconstruct the word. -/
def Obligations.FieldsSplitAndRejoin : Prop :=
  ∀ w : Word,
    (splitWord w).opcode.toNat = w.toNat / 2 ^ 12 % 2 ^ 4 ∧
    (splitWord w).arg0.toNat = w.toNat / 2 ^ 8 % 2 ^ 4 ∧
    (splitWord w).arg1.toNat = w.toNat / 2 ^ 4 % 2 ^ 4 ∧
    (splitWord w).arg2.toNat = w.toNat / 2 ^ 0 % 2 ^ 4 ∧
    w.toNat = (splitWord w).opcode.toNat * 4096 + (splitWord w).arg0.toNat * 256 +
      (splitWord w).arg1.toNat * 16 + (splitWord w).arg2.toNat

/-- R66: the immediate of ADDC, SUBC and LRC is `arg1 * 16 + arg2 = w[7:0]`, zero-extended. -/
def Obligations.ImmediateIsTheZeroExtendedLowByte : Prop :=
  ∀ w : Word,
    (imm8Of (splitWord w)).toNat = (splitWord w).arg1.toNat * 16 + (splitWord w).arg2.toNat ∧
    (imm8Of (splitWord w)).toNat = w.toNat % 256 ∧
    (zext16 (imm8Of (splitWord w))).toNat = (imm8Of (splitWord w)).toNat ∧
    ((splitWord w).opcode.toNat = 3 → ∃ rd, decode w = .addc rd (imm8Of (splitWord w))) ∧
    ((splitWord w).opcode.toNat = 4 → ∃ rd, decode w = .subc rd (imm8Of (splitWord w))) ∧
    ((splitWord w).opcode.toNat = 11 → ∃ rd, decode w = .lrc rd (imm8Of (splitWord w)))

/-- Words of the decoder's table of vectors (`95_test_vectors.md` V-DEC), one for every row of the opcode table. -/
def Obligations.SpecWordsDecode : Prop :=
  decode 0x0000#16 = .halt 0 ∧ decode 0x0112#16 = .cpy 1 2 ∧ decode 0x0254#16 = .not 5 4 ∧
  decode 0x031F#16 = .lsl 1 15 ∧ decode 0x0410#16 = .lsr 1 0 ∧ decode 0x0500#16 = .jmp 0 0 ∧
  decode 0x06AB#16 = .nop 0xAB ∧ decode 0x0700#16 = .unmappedExt7 0 ∧
  decode 0x0ABC#16 = .unmappedExt8F 10 0xBC ∧ decode 0x1312#16 = .add 3 1 2 ∧
  decode 0x2012#16 = .sub 0 1 2 ∧ decode 0x3C7F#16 = .addc 12 0x7F ∧ decode 0x4101#16 = .subc 1 1 ∧
  decode 0x5014#16 = .cmp 0 1 4 ∧ decode 0x6056#16 = .jlt 0 5 6 ∧ decode 0x7056#16 = .jgt 0 5 6 ∧
  decode 0x8056#16 = .jeq 0 5 6 ∧ decode 0x9857#16 = .ldr 8 5 7 ∧ decode 0xA257#16 = .str 2 5 7 ∧
  decode 0xB710#16 = .lrc 7 0x10 ∧ decode 0xC635#16 = .and 6 3 5 ∧ decode 0xD734#16 = .or 7 3 4 ∧
  decode 0xE875#16 = .xor 8 7 5 ∧ decode 0xFFFF#16 = .unmappedF 0xFFF

/-- Decoding the word of a well-formed instruction gives the instruction back, every operand and every ignored bit: the
model carries the ignored bits in `Instr` (its choice, log 22). -/
def Obligations.DecodeInvertsEncode : Prop :=
  ∀ i : Instr, i.wf = true → decode (encode i) = i

/-- Every word decodes to a well-formed instruction, whose word it is, so no two words are one term of `Instr`. This holds
because the model carries the bits that a row ignores in `Instr` (its choice, log 22); in the spec's sense the words
0x0000 to 0x00FF, say, are all HALT (`30_encoding.md` section 3), and `IgnoredBitsChangeNothing` says that such words are
executed alike. -/
def Obligations.EncodeInvertsDecode : Prop :=
  ∀ w : Word, (decode w).wf = true ∧ encode (decode w) = w

/-- The rows of the opcode table are disjoint, together cover all words, and a word decodes to the instruction of the
row it matches (`30_encoding.md` section 3). -/
def Obligations.EveryWordSelectsExactlyItsRow : Prop :=
  ∀ w : Word,
    (∀ row ∈ opcodeTable, (w &&& row.mask = row.pattern ↔ (decode w).mnemonic = row.mnemonic)) ∧
    ∃ row ∈ opcodeTable, w &&& row.mask = row.pattern ∧
      ∀ other ∈ opcodeTable, w &&& other.mask = other.pattern → other = row

/-- Ignored bits have no influence on execution (`30_encoding.md` section 3): two words of one row without register
operands, and two words of LSL or of LSR that agree outside `arg2`, are executed alike. -/
def Obligations.IgnoredBitsChangeNothing : Prop :=
  ∀ (v w : Word) (s : State), (decode v).mnemonic = (decode w).mnemonic →
    ((decode v).mnemonic ∈ ["HALT", "NOP", "UNMAPPED_EXT_7", "UNMAPPED_EXT_8_F", "UNMAPPED_F"] →
      exec (decode v) s = exec (decode w) s) ∧
    ((decode v).mnemonic ∈ ["LSL", "LSR"] → v &&& 0xFFF0#16 = w &&& 0xFFF0#16 →
      exec (decode v) s = exec (decode w) s)

/-! ### The extended group -/

/-- R114: every execution of HALT raises Halt: exit status 0, not an error, no diagnostic. -/
def Obligations.HaltAlwaysEndsWithStatusZero : Prop :=
  ∀ (ignored : BitVec 8) (s : State),
    decode (wordN 0 ignored) = .halt ignored ∧
    ∃ t, exec (.halt ignored) s = .next t ∧ endedBy .halt 0 s t ∧ t.diag = s.diag ∧ t.endedWell ∧ ¬ t.faulted

/-- R81. -/
def Obligations.CpyCopiesTheRegister : Prop :=
  ∀ (rd rs : RegIx) (s : State),
    decode (wordX2 1 rd rs) = .cpy rd rs ∧
    ∃ t, exec (.cpy rd rs) s = .next t ∧ t.readReg rd = s.readReg rs ∧ OnlyRegister rd s t

/-- R82. -/
def Obligations.NotComplementsAllSixteenBits : Prop :=
  ∀ (rd rs : RegIx) (s : State),
    decode (wordX2 2 rd rs) = .not rd rs ∧
    ∃ t, exec (.not rd rs) s = .next t ∧ (t.readReg rd).toNat = 65535 - (s.readReg rs).toNat ∧
      OnlyRegister rd s t

/-- LSL shifts `x[3]` by the whole value of `x[arg1]`. Rests on the spec's decisions D6 (always `x[3]`) and D7 (counts of
16 and more) (log 10, log 11). -/
def Obligations.LslShiftsRegisterThree : Prop :=
  ∀ (rn : RegIx) (ignored : BitVec 4) (s : State),
    decode (wordX1 3 rn ignored) = .lsl rn ignored ∧
    ∃ t, exec (.lsl rn ignored) s = .next t ∧
      (t.readReg 3).toNat = (s.readReg 3).toNat * 2 ^ (s.readReg rn).toNat % 65536 ∧
      (16 ≤ (s.readReg rn).toNat → t.readReg 3 = 0#16) ∧ OnlyRegister 3 s t

/-- LSR shifts `x[4]` by the whole value of `x[arg1]`, zeros entering at bit 15. Rests on the spec's decisions D6 and D7
(log 10, log 11). -/
def Obligations.LsrShiftsRegisterFour : Prop :=
  ∀ (rn : RegIx) (ignored : BitVec 4) (s : State),
    decode (wordX1 4 rn ignored) = .lsr rn ignored ∧
    ∃ t, exec (.lsr rn ignored) s = .next t ∧
      (t.readReg 4).toNat = (s.readReg 4).toNat / 2 ^ (s.readReg rn).toNat ∧
      (16 ≤ (s.readReg rn).toNat → t.readReg 4 = 0#16) ∧ OnlyRegister 4 s t

/-- JMP writes `(x[arg1] * 256 + x[arg2] - 1) mod 65536` to the pc and nothing else. Rests on the spec's decisions D8
(which field is which) and D9 (modulo 65536) (log 12). -/
def Obligations.JmpWritesTheTargetMinusOne : Prop :=
  ∀ (rs ro : RegIx) (s : State),
    decode (wordX2 5 rs ro) = .jmp rs ro ∧
    ∃ t, exec (.jmp rs ro) s = .next t ∧
      (t.pc.toNat : Int) = ((s.readReg rs).toNat * 256 + (s.readReg ro).toNat - 1) % 65536 ∧ OnlyPc s t

/-- NOP has no effect, and the pc advances by 1 as after any instruction (`40_extended.md`, NOP). That the pc goes from 65535
to 0 is the spec's decision D9 (log 12); that the step also takes its turn off the schedule is the model's (log 2). -/
def Obligations.NopOnlyAdvancesThePc : Prop :=
  ∀ (ignored : BitVec 8) (s : State),
    decode (wordN 6 ignored) = .nop ignored ∧ exec (.nop ignored) s = .next s ∧
    (s.ready → s.fetches (wordN 6 ignored) → ∃ t, step s = .next t ∧
      t.pc.toNat = (s.pc.toNat + 1) % 65536 ∧ OnlyPc s.takeTurn t)

/-! ### Arithmetic -/

/-- R87. -/
def Obligations.AddIsTheSumModulo65536 : Prop :=
  ∀ (rd ra rb : RegIx) (s : State),
    decode (wordR3 1 rd ra rb) = .add rd ra rb ∧
    ∃ t, exec (.add rd ra rb) s = .next t ∧
      (t.readReg rd).toNat = ((s.readReg ra).toNat + (s.readReg rb).toNat) % 65536 ∧ OnlyRegister rd s t

/-- R88. -/
def Obligations.SubIsTheDifferenceModulo65536 : Prop :=
  ∀ (rd ra rb : RegIx) (s : State),
    decode (wordR3 2 rd ra rb) = .sub rd ra rb ∧
    ∃ t, exec (.sub rd ra rb) s = .next t ∧
      ((t.readReg rd).toNat : Int) = ((s.readReg ra).toNat - (s.readReg rb).toNat) % 65536 ∧
      OnlyRegister rd s t

/-- R89. -/
def Obligations.AddcAddsTheImmediate : Prop :=
  ∀ (rd : RegIx) (imm8 : BitVec 8) (s : State),
    decode (wordRI 3 rd imm8) = .addc rd imm8 ∧
    ∃ t, exec (.addc rd imm8) s = .next t ∧
      (t.readReg rd).toNat = ((s.readReg rd).toNat + imm8.toNat) % 65536 ∧ OnlyRegister rd s t

/-- R90. -/
def Obligations.SubcSubtractsTheImmediate : Prop :=
  ∀ (rd : RegIx) (imm8 : BitVec 8) (s : State),
    decode (wordRI 4 rd imm8) = .subc rd imm8 ∧
    ∃ t, exec (.subc rd imm8) s = .next t ∧
      ((t.readReg rd).toNat : Int) = ((s.readReg rd).toNat - imm8.toNat) % 65536 ∧ OnlyRegister rd s t

/-! ### Comparison and conditional jumps -/

/-- R95: 0, 1 or 2 as the first value is less, equal or greater, unsigned. -/
def Obligations.CmpLeavesTheThreeValuedFlag : Prop :=
  ∀ (rf ra rb : RegIx) (s : State),
    decode (wordR3 5 rf ra rb) = .cmp rf ra rb ∧
    ∃ t, exec (.cmp rf ra rb) s = .next t ∧
      ((s.readReg ra).toNat < (s.readReg rb).toNat → (t.readReg rf).toNat = 0) ∧
      ((s.readReg ra).toNat = (s.readReg rb).toNat → (t.readReg rf).toNat = 1) ∧
      ((s.readReg ra).toNat > (s.readReg rb).toNat → (t.readReg rf).toNat = 2) ∧ OnlyRegister rf s t

/-- R96, R97, R98: JLT, JGT and JEQ do `JumpTo(arg1, arg2)`, as JMP does, exactly when the whole Word in `x[arg0]` is 0, 2
and 1; otherwise they have no effect. -/
def Obligations.ConditionalJumpsTestTheWholeWord : Prop :=
  ∀ (rf rs ro : RegIx) (s : State),
    decode (wordR3 6 rf rs ro) = .jlt rf rs ro ∧ decode (wordR3 7 rf rs ro) = .jgt rf rs ro ∧
    decode (wordR3 8 rf rs ro) = .jeq rf rs ro ∧
    (∃ t, exec (.jlt rf rs ro) s = .next t ∧
      ((s.readReg rf).toNat = 0 → exec (.jmp rs ro) s = .next t) ∧ ((s.readReg rf).toNat ≠ 0 → t = s)) ∧
    (∃ t, exec (.jgt rf rs ro) s = .next t ∧
      ((s.readReg rf).toNat = 2 → exec (.jmp rs ro) s = .next t) ∧ ((s.readReg rf).toNat ≠ 2 → t = s)) ∧
    (∃ t, exec (.jeq rf rs ro) s = .next t ∧
      ((s.readReg rf).toNat = 1 → exec (.jmp rs ro) s = .next t) ∧ ((s.readReg rf).toNat ≠ 1 → t = s))

/-- After a CMP, of the three conditional jumps on its register the one that its outcome names jumps and the other two
do nothing; on a value of 3 or more none jumps (`42_compare_branch.md`, notes on control transfer). -/
def Obligations.CmpSelectsOneConditionalJump : Prop :=
  (∀ (rf ra rb rs ro : RegIx) (s t : State), exec (.cmp rf ra rb) s = .next t →
    exec (.jlt rf rs ro) t = (if (s.readReg ra).toNat < (s.readReg rb).toNat then exec (.jmp rs ro) t else .next t) ∧
    exec (.jeq rf rs ro) t = (if (s.readReg ra).toNat = (s.readReg rb).toNat then exec (.jmp rs ro) t else .next t) ∧
    exec (.jgt rf rs ro) t = (if (s.readReg ra).toNat > (s.readReg rb).toNat then exec (.jmp rs ro) t else .next t)) ∧
  (∀ (rf rs ro : RegIx) (s : State), 3 ≤ (s.readReg rf).toNat →
    exec (.jlt rf rs ro) s = .next s ∧ exec (.jgt rf rs ro) s = .next s ∧ exec (.jeq rf rs ro) s = .next s)

/-! ### Loads and stores -/

/-- Under the default policy LDR loads the cell that the low 8 bits of the two address registers name, of any segment.
Rests on the spec's decision D4 (truncation) (log 7). -/
def Obligations.LdrLoadsTheTruncatedCell : Prop :=
  ∀ (rd rs ro : RegIx) (s : State),
    decode (wordR3 9 rd rs ro) = .ldr rd rs ro ∧
    (s.indexPolicy = .truncate → ∃ t, exec (.ldr rd rs ro) s = .next t ∧
      t.readReg rd = s.readCell (cellOf (s.readReg rs) (s.readReg ro)) ∧ OnlyRegister rd s t)

/-- Under the default policy STR stores to the cell of a segment value below 128 and the low 8 bits of the offset value;
every other cell, and everything else, is unchanged. In canonical memories (`MemoryStaysCanonical`). Rests on the spec's
decisions D4 and D5 (log 7, log 8). -/
def Obligations.StrStoresOneWritableCell : Prop :=
  ∀ (rv rs ro : RegIx) (s : State),
    decode (wordR3 10 rv rs ro) = .str rv rs ro ∧
    (MemoryCanonical s → s.indexPolicy = .truncate → (s.readReg rs).toNat < 128 →
      ∃ t, exec (.str rv rs ro) s = .next t ∧
        t.readCell (cellOf (s.readReg rs) (s.readReg ro)) = s.readReg rv ∧
        OnlyCell (cellOf (s.readReg rs) (s.readReg ro)) s t)

/-- Under the policy `fault` (the spec's alternative, decision D4, log 7) an LDR or STR with an index value of 256 or more
ends the run with INDEX_OUT_OF_RANGE, its status free (log 5), STR's segment check coming first; with both values below
256 they load and store as under the default. -/
def Obligations.IndexFaultPolicyEndsTheRun : Prop :=
  ∀ (r rs ro : RegIx) (s : State), s.indexPolicy = .fault →
    ((256 ≤ (s.readReg rs).toNat ∨ 256 ≤ (s.readReg ro).toNat) → ∃ t, exec (.ldr r rs ro) s = .next t ∧
      endedBy .indexOutOfRange Config.indexFaultStatus s t ∧ t.diag = s.diag) ∧
    ((s.readReg rs).toNat < 128 → 256 ≤ (s.readReg ro).toNat → ∃ t, exec (.str r rs ro) s = .next t ∧
      endedBy .indexOutOfRange Config.indexFaultStatus s t ∧ t.diag = s.diag) ∧
    ((s.readReg rs).toNat < 256 → (s.readReg ro).toNat < 256 → ∃ t, exec (.ldr r rs ro) s = .next t ∧
      t.readReg r = s.readCell (cellOf (s.readReg rs) (s.readReg ro)) ∧ OnlyRegister r s t) ∧
    (MemoryCanonical s → (s.readReg rs).toNat < 128 → (s.readReg ro).toNat < 256 →
      ∃ t, exec (.str r rs ro) s = .next t ∧
        t.readCell (cellOf (s.readReg rs) (s.readReg ro)) = s.readReg r ∧
        OnlyCell (cellOf (s.readReg rs) (s.readReg ro)) s t)

/-- STR raises IllegalWrite exactly when the 16-bit value of its segment register is 128 or more: status 1, one
diagnostic, nothing stored; and no other instruction raises it (`60_exceptions.md` section 2). That the full value is
compared, before truncation, is the spec's decision D5 (log 8). -/
def Obligations.IllegalWriteExactlyOnReadOnlySegments : Prop :=
  (∀ (rv rs ro : RegIx) (s : State), 128 ≤ (s.readReg rs).toNat → ∃ t, exec (.str rv rs ro) s = .next t ∧
    endedBy .illegalWrite 1 s t ∧ t.diag = s.diag ++ [.illegalWrite]) ∧
  (∀ (i : Instr) (s t : State), exec i s = .next t → s.cause ≠ .illegalWrite → t.cause = .illegalWrite →
    ∃ rv rs ro, i = .str rv rs ro ∧ 128 ≤ (s.readReg rs).toNat)

/-- R104. -/
def Obligations.LrcLoadsTheZeroExtendedByte : Prop :=
  ∀ (rd : RegIx) (imm8 : BitVec 8) (s : State),
    decode (wordRI 11 rd imm8) = .lrc rd imm8 ∧
    ∃ t, exec (.lrc rd imm8) s = .next t ∧ (t.readReg rd).toNat = imm8.toNat ∧ OnlyRegister rd s t

/-- A store, then a load of the same pair of indices through any two registers, with the cell unchanged in between,
gives the value stored (`43_load_store.md`, round trip). In canonical memories; default policy (decision D4, log 7). -/
def Obligations.LoadAfterStoreGivesTheValue : Prop :=
  ∀ (rv rs ro rd ps po : RegIx) (s t u : State),
    MemoryCanonical s → s.indexPolicy = .truncate → u.indexPolicy = .truncate →
    (s.readReg rs).toNat < 128 → exec (.str rv rs ro) s = .next t →
    u.readCell (cellOf (s.readReg rs) (s.readReg ro)) = t.readCell (cellOf (s.readReg rs) (s.readReg ro)) →
    (u.readReg ps).toNat % 256 = (s.readReg rs).toNat % 256 →
    (u.readReg po).toNat % 256 = (s.readReg ro).toNat % 256 →
    ∃ v, exec (.ldr rd ps po) u = .next v ∧ v.readReg rd = s.readReg rv

/-! ### Bitwise -/

/-- R106, R107, R108: bit `k` of the result is the AND, OR, XOR of the two bits `k`. -/
def Obligations.BitwiseActOnEachBit : Prop :=
  ∀ (rd ra rb : RegIx) (s : State),
    decode (wordR3 12 rd ra rb) = .and rd ra rb ∧ decode (wordR3 13 rd ra rb) = .or rd ra rb ∧
    decode (wordR3 14 rd ra rb) = .xor rd ra rb ∧
    (∃ t, exec (.and rd ra rb) s = .next t ∧ OnlyRegister rd s t ∧ ∀ k < 16,
      (t.readReg rd).getLsbD k = ((s.readReg ra).getLsbD k && (s.readReg rb).getLsbD k)) ∧
    (∃ t, exec (.or rd ra rb) s = .next t ∧ OnlyRegister rd s t ∧ ∀ k < 16,
      (t.readReg rd).getLsbD k = ((s.readReg ra).getLsbD k || (s.readReg rb).getLsbD k)) ∧
    (∃ t, exec (.xor rd ra rb) s = .next t ∧ OnlyRegister rd s t ∧ ∀ k < 16,
      (t.readReg rd).getLsbD k = ((s.readReg ra).getLsbD k ^^ (s.readReg rb).getLsbD k))

/-! ### Unmapped encodings -/

/-- The unmapped words are exactly 0x0700 to 0x0FFF and 0xF000 to 0xFFFF; each executes as a no-op and the pc advances by 1
(`30_encoding.md` section 3, `45_unmapped.md`). That the pc goes from 65535 to 0 is the spec's decision D9 (log 12); that
the step also takes its turn off the schedule is the model's (log 2). -/
def Obligations.UnmappedWordsAreExactlyTheseNoOps : Prop :=
  (∀ w : Word, unmapped w ↔ ((0x0700 ≤ w.toNat ∧ w.toNat ≤ 0x0FFF) ∨ 0xF000 ≤ w.toNat)) ∧
  (∀ w : Word, unmapped w ↔
    (decode w).mnemonic ∈ ["UNMAPPED_EXT_7", "UNMAPPED_EXT_8_F", "UNMAPPED_F"]) ∧
  (∀ s : State, (∀ g, exec (.unmappedExt7 g) s = .next s) ∧ (∀ a g, exec (.unmappedExt8F a g) s = .next s) ∧
    (∀ g, exec (.unmappedF g) s = .next s)) ∧
  (∀ (w : Word) (s : State), unmapped w → s.ready → s.fetches w → ∃ t, step s = .next t ∧
    t.pc.toNat = (s.pc.toNat + 1) % 65536 ∧ OnlyPc s.takeTurn t)

/-! ### The instruction step -/

/-- A ready machine executes the instruction its next word decodes to, and adds 1 to the pc unless the run ended
(`10_state.md`, the instruction step; the pc at the end is decision D10, log 14; the increment is modulo 65536 by decision
D9, log 12; the turn taken off the schedule is the model's, log 2). -/
def Obligations.StepRunsTheDecodedInstruction : Prop :=
  ∀ (s u : State) (w : Word), s.ready → s.fetches w → exec (decode w) s.takeTurn = .next u →
    (u.run = .running → step s = .next { u with pc := u.pc + 1#16 }) ∧
    (u.run = .terminated → step s = .next u)

/-- A fetch outside the code ends the run with FETCH_OUT_OF_RANGE: nothing else changes, there is no diagnostic, the status
is free, and the end is a faulted one. The spec's decision D3 (log 15; the status: log 4; the schedule: log 2). -/
def Obligations.FetchOutsideTheCodeEndsTheRun : Prop :=
  ∀ s : State, s.ready → s.code.length ≤ s.pc.toNat → ∃ t, step s = .next t ∧
    endedBy .fetchOutOfRange Config.fetchFaultStatus s.takeTurn t ∧ t.diag = s.diag ∧ t.faulted ∧ ¬ t.endedWell

/-- After a taken jump of any of the four kinds the next fetch is at exactly `x[arg1] * 256 + x[arg2]` modulo 65536, not one
before it, and nothing but the pc changed (`42_compare_branch.md`, the jump target formula). Rests on the spec's decisions
D8 and D9 (log 12); the turn taken off the schedule is the model's (log 2). -/
def Obligations.TakenJumpLandsOnItsTarget : Prop :=
  ∀ (s : State) (w : Word) (rs ro : RegIx), s.ready → s.fetches w →
    (decode w).jumpsThrough = some (rs, ro) → takesJump (decode w) s →
    ∃ t, step s = .next t ∧ t.pc.toNat = ((s.readReg rs).toNat * 256 + (s.readReg ro).toNat) % 65536 ∧
      OnlyPc s.takeTurn t

/-- Every instruction step ends the run with the pc where it was, or goes to the next index, or was a taken jump and goes
to its target; nothing else moves the pc. Rests on the spec's decisions D8, D9 and D10 (log 12, log 14). -/
def Obligations.InstructionStepsAdvanceJumpOrEnd : Prop :=
  ∀ (s t : State) (w : Word), s.ready → s.fetches w → step s = .next t →
    (t.run = .terminated ∧ t.pc = s.pc) ∨
    (t.run = .running ∧ ¬ takesJump (decode w) s ∧ t.pc.toNat = (s.pc.toNat + 1) % 65536) ∨
    (t.run = .running ∧ takesJump (decode w) s ∧ ∃ rs ro, (decode w).jumpsThrough = some (rs, ro) ∧
      t.pc.toNat = ((s.readReg rs).toNat * 256 + (s.readReg ro).toNat) % 65536)

/-! ### Frames over all instructions -/

/-- No instruction writes a register but the one the table of `10_state.md` section 1 names for it. -/
def Obligations.OnlyTheNamedRegisterIsWritten : Prop :=
  ∀ (i : Instr) (s t : State), exec i s = .next t → ∀ q, i.written ≠ some q → t.readReg q = s.readReg q

/-- No instruction but STR writes data memory, and STR writes only the cell its two registers name
(`20_memory.md` section 1): for every cell, if it is not the one the address function gives, it reads as before. -/
def Obligations.OnlyStrWritesAndOnlyItsCell : Prop :=
  ∀ (i : Instr) (s t : State), exec i s = .next t →
    ((∀ rv rs ro, i ≠ .str rv rs ro) → t.mem = s.mem) ∧
    (∀ rv rs ro, i = .str rv rs ro → ∀ a, cellAddress s.indexPolicy (s.readReg rs) (s.readReg ro) ≠ some a →
      t.readCell a = s.readCell a)

/-- An instruction sees registers, data memory, pc and the index policy only: from two running states that agree on these
it does the same to them and ends the run alike; and it changes none of the fields outside the program and the run state
(`10_state.md` sections 4 and 7, `60_exceptions.md` section 8). That two runs which end with INDEX_OUT_OF_RANGE end with
equal statuses is the model's choice: the spec leaves that status unspecified, and one free constant serves all runs
(log 5). -/
def Obligations.InstructionsSeeOnlyTheProgramState : Prop :=
  ∀ (i : Instr) (s u s' u' : State), SameProgramState s u → u.indexPolicy = s.indexPolicy →
    s.run = .running → u.run = .running → exec i s = .next s' → exec i u = .next u' →
    SameProgramState s' u' ∧ u'.run = s'.run ∧
    (s'.run = .terminated → u'.cause = s'.cause ∧ u'.exitStatus = s'.exitStatus) ∧
    s' = { s with regs := s'.regs, pc := s'.pc, mem := s'.mem, run := s'.run, cause := s'.cause,
                  exitStatus := s'.exitStatus, diag := s'.diag }

/-! ### The scheduler and the two event sources -/

/-- While the run goes on every step answers a next state, and with an empty queue and no pending tick the core's cycle is an
instruction step (`60_exceptions.md` section 5). The rule there is about the core's cycle; that a turn of the worker in
which its step is not enabled answers a next state too is the model's choice (log 25; whose turn it is: log 2). -/
def Obligations.RunningMachineNeverWaits : Prop :=
  (∀ s : State, s.run = .running → ∃ t, step s = .next t) ∧
  (∀ s : State, s.ready → step s = instructionStep s.takeTurn)

/-- A waiting key is consumed before anything else; the value 113, and no other, ends the run with QUIT and status 0,
without a diagnostic; registers, memory and pc are kept (`60_exceptions.md` sections 2 and 6). That any other value is
consumed with no effect, and the run goes on, is the spec's decision D22 (log 20). -/
def Obligations.OnlyTheQuitCodeQuits : Prop :=
  ∀ (s : State) (k : Byte) (rest : List Byte), s.coresTurn → s.keyq = k :: rest → ∃ t, step s = .next t ∧
    t.keyq = rest ∧ SameProgramState s t ∧ t.diag = s.diag ∧
    (k.toNat = 113 → t.run = .terminated ∧ t.cause = .quit ∧ t.exitStatus = some 0) ∧
    (k.toNat ≠ 113 → t.run = .running)

/-- Any other key leaves the queue, uses up the cycle and changes nothing else, a pending tick included. The spec's
decision D22 (log 20); the turn taken off the schedule is the model's (log 2). -/
def Obligations.OtherKeysOnlyLeaveTheQueue : Prop :=
  ∀ (s : State) (k : Byte) (rest : List Byte), s.coresTurn → s.keyq = k :: rest → k.toNat ≠ 113 →
    step s = .next { s with keyq := rest, schedule := s.schedule.tail }

/-- With an empty queue and a pending tick the cycle clears the tick and invokes the display-refresh hook, and nothing else
changes (`60_exceptions.md` section 7). That the hook's calls are counted in `displayRefreshes` (log 18) and that the turn
is taken off `schedule` (log 2) is the model's choice. -/
def Obligations.TickIsServicedInACycleOfItsOwn : Prop :=
  ∀ s : State, s.coresTurn → s.keyq = [] → s.tickPending = true →
    step s = .next { s with tickPending := false, displayRefreshes := s.displayRefreshes + 1,
                            schedule := s.schedule.tail }

/-- The worker appends the byte it reads to the queue, and stops exactly after the quit code; once stopped it does
nothing (`60_exceptions.md` section 6; the queue's discipline is decision D13, log 20; `keyIn` and `schedule` are log 2).
That a stopped worker, whose step the spec does not enable, has a turn which only passes is the model's choice (log 25). -/
def Obligations.WorkerForwardsBytesAndStopsAfterQuit : Prop :=
  (∀ (s : State) (b : Byte) (rest : List KeyInput), s.run = .running → s.nextAgent = .worker →
    s.kbdStopped = false → s.keyIn = .byte b :: rest → queueHasRoom s.keyq.length = true →
    step s = .next { s with keyIn := rest, keyq := s.keyq ++ [b], kbdStopped := decide (b.toNat = 113),
                            schedule := s.schedule.tail }) ∧
  (∀ s : State, s.run = .running → s.nextAgent = .worker → s.kbdStopped = true →
    step s = .next { s with schedule := s.schedule.tail })

/-- With no input, or no room for the byte, the worker waits: its turn changes nothing (the model's choice, log 25; the
queue's discipline is decision D13, log 20); at the end of input it stops and forwards nothing (decision D14, log 20), with
a full queue too (the model's choice, log 29). -/
def Obligations.WorkerWaitsOrMeetsTheEndOfInput : Prop :=
  ∀ s : State, s.run = .running → s.nextAgent = .worker → s.kbdStopped = false →
    (s.keyIn = [] → step s = .next { s with schedule := s.schedule.tail }) ∧
    (∀ b rest, s.keyIn = .byte b :: rest → queueHasRoom s.keyq.length = false →
      step s = .next { s with schedule := s.schedule.tail }) ∧
    (∀ rest, s.keyIn = .eof :: rest →
      step s = .next { s with keyIn := rest, kbdStopped := true, schedule := s.schedule.tail })

/-- The timer sets the pending bit, and a second firing before the service leaves it one tick: two firings and a service
emit one refresh. The spec's decision D15 (log 21); the count of refreshes and the schedule are the model's (log 18,
log 2). -/
def Obligations.TicksCoalesce : Prop :=
  (∀ s : State, s.run = .running → s.nextAgent = .timer →
    step s = .next { s with tickPending := true, schedule := s.schedule.tail }) ∧
  (∀ (s : State) (rest : List Agent), s.run = .running → s.keyq = [] →
    s.schedule = [.timer, .timer, .core] ++ rest →
    Sys2Proof.core.run 3 s =
      .next { s with tickPending := false, displayRefreshes := s.displayRefreshes + 1, schedule := rest })

/-- The worker writes only `keyq`, by enqueueing what it read, and `kbd_stopped`; the timer only `tick_pending`; the core
writes the rest, dequeues `keyq` and clears `tick_pending` (`10_state.md` section 9, ownership). What the steps do with
`schedule` and `keyIn`, the model's fields for the environment, is its choice (log 2). -/
def Obligations.EachAgentWritesOnlyItsOwnState : Prop :=
  ∀ s t : State, s.run = .running → step s = .next t →
    (s.nextAgent = .worker →
      t = { s with keyq := t.keyq, kbdStopped := t.kbdStopped, keyIn := t.keyIn, schedule := s.schedule.tail } ∧
      (t.keyq = s.keyq ∨ ∃ b, s.keyIn = .byte b :: t.keyIn ∧ t.keyq = s.keyq ++ [b]) ∧
      (t.kbdStopped = s.kbdStopped ∨ t.kbdStopped = true)) ∧
    (s.nextAgent = .timer → t = { s with tickPending := true, schedule := s.schedule.tail }) ∧
    (s.nextAgent = .core → t.kbdStopped = s.kbdStopped ∧ t.keyIn = s.keyIn ∧
      (t.keyq = s.keyq ∨ ∃ k, s.keyq = k :: t.keyq) ∧
      (t.tickPending = s.tickPending ∨ t.tickPending = false))

/-! ### Ends of a run -/

/-- Once the run has ended nothing changes: a step from a successful end answers the same state, a step from a faulted end
answers its fault and no state (`60_exceptions.md` section 16; that it answers so is the model's choice, log 1). -/
def Obligations.TerminationIsFinal : Prop :=
  ∀ s : State, s.run = .terminated →
    (∀ t, step s = .next t → t = s) ∧
    (s.cause = .halt ∨ s.cause = .quit → step s = .next s) ∧
    (s.cause = .illegalWrite → step s = .fault .illegalWrite) ∧
    (s.cause = .fetchOutOfRange → step s = .fault .fetchOutOfRange) ∧
    (s.cause = .indexOutOfRange → step s = .fault .indexOutOfRange)

/-- Every termination is precise: the step that ends the run writes no register, no cell and not the pc
(`60_exceptions.md` section 3; the pc is decision D10, log 14). -/
def Obligations.TerminationsArePrecise : Prop :=
  ∀ s t : State, s.run = .running → step s = .next t → t.run = .terminated →
    SameProgramState s t ∧ t.code = s.code ∧ t.displayRefreshes = s.displayRefreshes

/-! ### Invariants -/

/-- R41: no step of any agent ever changes a cell whose segment index is 128 or more. -/
def Obligations.RomIsNeverWritten : Prop :=
  ∀ s t : State, step s = .next t → ∀ a : CellAddr, 128 ≤ a.seg.toNat → t.readCell a = s.readCell a

/-- Every step keeps data memory in its canonical form (the model's form, log 17). -/
def Obligations.MemoryStaysCanonical : Prop :=
  ∀ s t : State, MemoryCanonical s → step s = .next t → MemoryCanonical t

/-- Every step keeps cause, exit status and diagnostics those of one termination, or of none. So after it HALT and QUIT mean
status 0 and no diagnostic; ILLEGAL_WRITE means status 1 and its one diagnostic, and any diagnostic means ILLEGAL_WRITE;
and status 1 means ILLEGAL_WRITE unless the free status of a faulted fetch or index (log 4, log 5) happens to be 1
(`60_exceptions.md` sections 2, 3, 16; the run-state fields are decision D12, log 16; the diagnostic is decision D20,
log 19). -/
def Obligations.RunStateStaysConsistent : Prop :=
  ∀ s t : State, RunStateConsistent s → step s = .next t → RunStateConsistent t ∧
    (t.cause = .halt ∨ t.cause = .quit → t.exitStatus = some 0 ∧ t.diag = []) ∧
    (t.cause = .illegalWrite → t.exitStatus = some 1 ∧ t.diag = [.illegalWrite]) ∧
    (t.diag ≠ [] → t.cause = .illegalWrite) ∧
    (t.exitStatus = some 1 → t.cause = .illegalWrite ∨
      (t.cause = .fetchOutOfRange ∧ Config.fetchFaultStatus = 1) ∨
      (t.cause = .indexOutOfRange ∧ Config.indexFaultStatus = 1))

/-- Every step keeps the queue within its capacity, whatever that is, with a quit code only at its end and only when the
worker has stopped (`60_exceptions.md` section 6; decision D13, log 6, log 20). -/
def Obligations.QuitCodeStaysLastInTheQueue : Prop :=
  ∀ s t : State, QuitCodeLast s → QueueWithinCapacity s → step s = .next t →
    QuitCodeLast t ∧ QueueWithinCapacity t

/-- Every step keeps the ROM region equal to the image the machine was constructed from (`20_memory.md` section 1; the
placement is decision D11, log 9), and the lengths of `code` and `rom`. -/
def Obligations.RomRegionHoldsTheImage : Prop :=
  ∀ s t : State, RomHoldsImage s → InputsFit s → step s = .next t → RomHoldsImage t ∧ InputsFit t

/-- No step changes `code`, `rom` or the index policy. The program cannot be modified, and no agent writes the image
(`20_memory.md` sections 2 and 8, `00_scope.md` section 6); the policy is a parameter of the machine (`00_scope.md`
section 4, the spec's decision D4). The spec calls all three arguments of the step relation; that each is held as a field
of State which no step changes is the model's form (the policy: log 7; `code` and `rom`: log 3). -/
def Obligations.CodeRomAndPolicyNeverChange : Prop :=
  ∀ s t : State, step s = .next t → t.code = s.code ∧ t.rom = s.rom ∧ t.indexPolicy = s.indexPolicy

/-! ### Reset and construction -/

/-- R16: every register is 0 after construction, whatever the program, and at reset. -/
def Obligations.RegistersAreZeroAfterConstruction : Prop :=
  (∀ r, State.reset.readReg r = 0#16) ∧
  (∀ (p : Config.IndexPolicy) (code rom : List Word) (s : State), construct p code rom = .next s →
    ∀ r, s.readReg r = 0#16)

/-- The reset state meets every invariant. -/
def Obligations.ResetIsWellFormed : Prop := WellFormedState State.reset

/-- Construction succeeds exactly on inputs that fit, refuses the others by name, and gives the state of the reset table:
pc 0, writable memory 0, the ROM region the image row by row and 0 where it has no word, no cause, no diagnostic, empty
queue, no tick; and that state meets every invariant (`70_reset_and_hazards.md` section 1, `10_state.md` section 9;
decisions D2, D11, D12, D13, D15, D21: log 13, 9, 16, 20, 21, 28). -/
def Obligations.ConstructionGivesTheResetState : Prop :=
  ∀ (p : Config.IndexPolicy) (code rom : List Word),
    (65536 < code.length → construct p code rom = .refused .codeTooLong) ∧
    (code.length ≤ 65536 → 32768 < rom.length → construct p code rom = .refused .romTooLong) ∧
    (code.length ≤ 65536 → rom.length ≤ 32768 → ∃ s, construct p code rom = .next s ∧
      WellFormedState s ∧ s.code = code ∧ s.rom = rom ∧ s.indexPolicy = p ∧ s.pc = 0#16 ∧
      (∀ a : CellAddr, a.seg.toNat < 128 → s.readCell a = 0#16) ∧
      (∀ (i : Nat) (h : i < rom.length),
        s.readCell { seg := BitVec.ofNat 8 (128 + i / 256), off := BitVec.ofNat 8 (i % 256) } = rom[i]) ∧
      (∀ a : CellAddr, 128 ≤ a.seg.toNat → rom.length ≤ (a.seg.toNat - 128) * 256 + a.off.toNat →
        s.readCell a = 0#16) ∧
      s.run = .running ∧ s.cause = .none ∧ s.diag = [] ∧ s.keyq = [] ∧ s.tickPending = false ∧
      s.kbdStopped = false)

/-! ### The loader's file format -/

/-- The loader's file format, outside the core (`70_reset_and_hazards.md` section 2): the count is low byte first, each word
high byte first, too short a payload is a LoadError; and the file written for a word sequence reads back as it. What
happens with bytes beyond the payload is free (log 23). -/
def Obligations.LoaderReadsTheFileFormat : Prop :=
  (∀ (b0 b1 : Byte) (payload : List Byte), payload.length = 2 * (b0.toNat + 256 * b1.toNat) →
    ∃ ws : List Word, loadFile (b0 :: b1 :: payload) = .words ws ∧ ws.length = b0.toNat + 256 * b1.toNat ∧
      ∀ (k : Nat) (hi lo : Byte), payload[2 * k]? = some hi → payload[2 * k + 1]? = some lo →
        ∃ w, ws[k]? = some w ∧ w.toNat = 256 * hi.toNat + lo.toNat) ∧
  (∀ (b0 b1 : Byte) (payload : List Byte), payload.length < 2 * (b0.toNat + 256 * b1.toNat) →
    loadFile (b0 :: b1 :: payload) = .loadError) ∧
  (∀ ws : List Word, ws.length ≤ 65535 → loadFile (fileImage ws) = .words ws)
end

