-- ==== Sys2Proof/Laws/Decode.lean ====
section
/-! SUPPORT. The decoder and the encoder through the four fields (R64, R65). -/

namespace Sys2Proof

/-- A concatenation as a number. -/
theorem toNat_append_eq {m n : Nat} (x : BitVec m) (y : BitVec n) :
    (x ++ y).toNat = x.toNat * 2 ^ n + y.toNat := by
  rw [BitVec.toNat_append, ← Nat.shiftLeft_add_eq_or_of_lt y.isLt, Nat.shiftLeft_eq]

/-- R65: `w = opcode * 4096 + arg0 * 256 + arg1 * 16 + arg2`. -/
theorem toNat_joinFields (f : Fields) :
    (joinFields f).toNat = f.opcode.toNat * 4096 + f.arg0.toNat * 256 + f.arg1.toNat * 16 + f.arg2.toNat := by
  have h : (joinFields f).toNat = ((f.opcode ++ f.arg0 ++ f.arg1) ++ f.arg2).toNat := rfl
  rw [h, toNat_append_eq, toNat_append_eq, toNat_append_eq]
  omega

/-- A word written as the number of its fields is the joined fields (R65). -/
theorem ofNat_eq_joinFields (o a b c : BitVec 4) :
    BitVec.ofNat 16 (o.toNat * 4096 + a.toNat * 256 + b.toNat * 16 + c.toNat) =
      joinFields { opcode := o, arg0 := a, arg1 := b, arg2 := c } := by
  apply BitVec.eq_of_toNat_eq
  rw [toNat_joinFields, BitVec.toNat_ofNat]
  have := o.isLt
  have := a.isLt
  have := b.isLt
  have := c.isLt
  dsimp only
  omega

/-- R64: the fields as numbers. -/
theorem toNat_splitWord (w : Word) :
    (splitWord w).opcode.toNat = w.toNat / 4096 % 16 ∧ (splitWord w).arg0.toNat = w.toNat / 256 % 16 ∧
    (splitWord w).arg1.toNat = w.toNat / 16 % 16 ∧ (splitWord w).arg2.toNat = w.toNat % 16 := by
  simp [splitWord, BitVec.extractLsb'_toNat, Nat.shiftRight_eq_div_pow]

/-- Splitting what was joined gives the fields back. -/
@[simp] theorem splitWord_joinFields (f : Fields) : splitWord (joinFields f) = f := by
  have h := toNat_splitWord (joinFields f)
  rw [toNat_joinFields] at h
  have ho := f.opcode.isLt
  have h0 := f.arg0.isLt
  have h1 := f.arg1.isLt
  have h2 := f.arg2.isLt
  obtain ⟨e0, e1, e2, e3⟩ := h
  have eo : (splitWord (joinFields f)).opcode = f.opcode := BitVec.eq_of_toNat_eq (by omega)
  have ea : (splitWord (joinFields f)).arg0 = f.arg0 := BitVec.eq_of_toNat_eq (by omega)
  have eb : (splitWord (joinFields f)).arg1 = f.arg1 := BitVec.eq_of_toNat_eq (by omega)
  have ec : (splitWord (joinFields f)).arg2 = f.arg2 := BitVec.eq_of_toNat_eq (by omega)
  generalize splitWord (joinFields f) = g at eo ea eb ec
  cases g
  cases f
  simp_all

/-- R65: the fields reconstruct the word by concatenation. -/
@[simp] theorem joinFields_splitWord (w : Word) : joinFields (splitWord w) = w := by
  have h := toNat_splitWord w
  have hw := w.isLt
  exact BitVec.eq_of_toNat_eq (by rw [toNat_joinFields]; omega)

/-- The fields of a bitwise AND are the ANDs of the fields. -/
theorem splitWord_and (w v : Word) : splitWord (w &&& v) =
    { opcode := (splitWord w).opcode &&& (splitWord v).opcode, arg0 := (splitWord w).arg0 &&& (splitWord v).arg0,
      arg1 := (splitWord w).arg1 &&& (splitWord v).arg1, arg2 := (splitWord w).arg2 &&& (splitWord v).arg2 } := by
  simp [splitWord, BitVec.extractLsb'_and]

/-- A masked word, field by field. -/
theorem joinFields_and (f g : Fields) : joinFields f &&& joinFields g =
    joinFields { opcode := f.opcode &&& g.opcode, arg0 := f.arg0 &&& g.arg0, arg1 := f.arg1 &&& g.arg1,
                 arg2 := f.arg2 &&& g.arg2 } := by
  rw [← joinFields_splitWord (joinFields f &&& joinFields g), splitWord_and, splitWord_joinFields,
    splitWord_joinFields]

@[simp] theorem regOf_fieldOf (r : RegIx) : regOf (fieldOf r) = r := rfl

@[simp] theorem fieldOf_regOf (f : BitVec 4) : fieldOf (regOf f) = f := rfl

/-- A byte is its two nibbles (R66). -/
@[simp] theorem hiNibble_append_loNibble (b : BitVec 8) : hiNibble b ++ loNibble b = b := by
  revert b; decide

@[simp] theorem hiNibble_append (h l : BitVec 4) : hiNibble (h ++ l) = h := by
  revert h l; decide

@[simp] theorem loNibble_append (h l : BitVec 4) : loNibble (h ++ l) = l := by
  revert h l; decide

/-- A byte as the number of its nibbles (R66). -/
theorem toNat_eq_nibbles (b : BitVec 8) : b.toNat = (hiNibble b).toNat * 16 + (loNibble b).toNat := by
  have h : (hiNibble b ++ loNibble b).toNat = b.toNat := by rw [hiNibble_append_loNibble]
  rw [← h, toNat_append_eq]
  rfl

/-- A word is decoded through its fields. -/
@[simp] theorem decode_joinFields (f : Fields) : decode (joinFields f) = decodeFields f := by
  simp [decode]

end Sys2Proof
end

