-- ==== Sys2Proof/Laws/Memory.lean ====
section
/-! SUPPORT. The laws of data memory: read after write, every write keeps the canonical form, and canonical memories
that read alike are equal data. -/

namespace Sys2Proof.Machine

/-! ### Keys of cells -/

/-- Every cell has a key below 65536 (R39). -/
theorem CellAddr.key_lt (a : CellAddr) : a.key < Config.nSeg * Config.segLen := by
  have h1 := a.seg.isLt
  have h2 := a.off.isLt
  simp only [CellAddr.key, Config.nSeg, Config.segLen]
  omega

/-- Different cells have different keys. -/
theorem CellAddr.key_inj {a b : CellAddr} (h : a.key = b.key) : a = b := by
  obtain ⟨sa, oa⟩ := a
  obtain ⟨sb, ob⟩ := b
  simp only [CellAddr.key, Config.segLen] at h
  have ha := oa.isLt
  have hb := ob.isLt
  have hs : sa = sb := BitVec.eq_of_toNat_eq (by omega)
  have ho : oa = ob := BitVec.eq_of_toNat_eq (by omega)
  rw [hs, ho]

/-- Every number below 65536 is the key of a cell. -/
theorem CellAddr.exists_key {k : Nat} (h : k < Config.nSeg * Config.segLen) : ∃ a : CellAddr, a.key = k := by
  simp only [Config.nSeg, Config.segLen] at h
  refine ⟨{ seg := BitVec.ofNat 8 (k / 256), off := BitVec.ofNat 8 (k % 256) }, ?_⟩
  simp only [CellAddr.key, Config.segLen, BitVec.toNat_ofNat]
  omega

/-! ### Lookup -/

/-- A key below every listed key is not listed. -/
theorem Memory.lookup_of_all_gt {m : Memory} {key : Nat} (h : ∀ c ∈ m, key < c.1) :
    Memory.lookup m key = Memory.unlisted := by
  induction m with
  | nil => rfl
  | cons c rest ih =>
    have hc : key < c.1 := h c (by simp)
    have hne : ¬ c.1 = key := by omega
    simp only [Memory.lookup, hne, if_false]
    exact ih (fun d hd => h d (by simp [hd]))

/-- The entry written is the entry read, in a memory whose keys rise. -/
theorem Memory.lookup_update_same {m : Memory} (hm : List.Pairwise (fun x y : Nat × Word => x.1 < y.1) m)
    (key : Nat) (v : Word) : Memory.lookup (Memory.update m key v) key = v := by
  induction m with
  | nil => by_cases hv : v = Memory.unlisted <;> simp [Memory.update, Memory.lookup, hv]
  | cons c rest ih =>
    obtain ⟨k, u⟩ := c
    have hk : ∀ c ∈ rest, k < c.1 := (List.pairwise_cons.mp hm).1
    have hr := (List.pairwise_cons.mp hm).2
    by_cases h1 : key < k
    · by_cases hv : v = Memory.unlisted
      · have hall : ∀ c ∈ (k, u) :: rest, key < c.1 := by
          intro c hc
          rcases List.mem_cons.mp hc with rfl | hc
          · exact h1
          · exact Nat.lt_trans h1 (hk c hc)
        simp only [Memory.update, h1, if_true, hv]
        exact Memory.lookup_of_all_gt hall
      · simp [Memory.update, h1, hv, Memory.lookup]
    · by_cases h2 : key = k
      · by_cases hv : v = Memory.unlisted
        · subst h2
          simp only [Memory.update, Nat.lt_irrefl, if_false, if_true, hv]
          exact Memory.lookup_of_all_gt hk
        · subst h2
          simp [Memory.update, hv, Memory.lookup]
      · have h3 : ¬ k = key := fun e => h2 e.symm
        simp only [Memory.update, h1, h2, if_false, Memory.lookup, h3]
        exact ih hr

/-- Every other entry reads as before. -/
theorem Memory.lookup_update_other {key other : Nat} (h : other ≠ key) (m : Memory) (v : Word) :
    Memory.lookup (Memory.update m key v) other = Memory.lookup m other := by
  have h' : ¬ key = other := fun e => h e.symm
  induction m with
  | nil => by_cases hv : v = Memory.unlisted <;> simp [Memory.update, Memory.lookup, hv, h']
  | cons c rest ih =>
    obtain ⟨k, u⟩ := c
    by_cases h1 : key < k
    · by_cases hv : v = Memory.unlisted <;> simp [Memory.update, h1, hv, Memory.lookup, h']
    · by_cases h2 : key = k
      · subst h2
        by_cases hv : v = Memory.unlisted <;> simp [Memory.update, hv, Memory.lookup, h']
      · simp only [Memory.update, h1, h2, if_false, Memory.lookup, ih]

/-! ### The canonical form -/

/-- What an update lists: the entry written, or entries listed before. -/
theorem Memory.mem_update {m : Memory} {key : Nat} {v : Word} {c : Nat × Word}
    (h : c ∈ Memory.update m key v) : (c = (key, v) ∧ v ≠ Memory.unlisted) ∨ c ∈ m := by
  induction m with
  | nil =>
    by_cases hv : v = Memory.unlisted
    · simp [Memory.update, hv] at h
    · simp [Memory.update, hv] at h
      exact .inl ⟨h, hv⟩
  | cons d rest ih =>
    obtain ⟨k, u⟩ := d
    by_cases h1 : key < k
    · by_cases hv : v = Memory.unlisted
      · simp only [Memory.update, h1, if_true, hv] at h
        exact .inr h
      · simp only [Memory.update, h1, if_true, hv, if_false] at h
        rcases List.mem_cons.mp h with h | h
        · exact .inl ⟨h, hv⟩
        · exact .inr h
    · by_cases h2 : key = k
      · subst h2
        by_cases hv : v = Memory.unlisted
        · simp only [Memory.update, h1, if_false, if_true, hv] at h
          exact .inr (List.mem_cons_of_mem _ h)
        · simp only [Memory.update, h1, if_false, if_true, hv] at h
          rcases List.mem_cons.mp h with h | h
          · exact .inl ⟨h, hv⟩
          · exact .inr (List.mem_cons_of_mem _ h)
      · simp only [Memory.update, h1, h2, if_false] at h
        rcases List.mem_cons.mp h with h | h
        · exact .inr (by simp [h])
        · rcases ih h with h | h
          · exact .inl h
          · exact .inr (List.mem_cons_of_mem _ h)

/-- An update keeps the keys rising. -/
theorem Memory.pairwise_update {m : Memory} (hm : List.Pairwise (fun x y : Nat × Word => x.1 < y.1) m)
    (key : Nat) (v : Word) : List.Pairwise (fun x y : Nat × Word => x.1 < y.1) (Memory.update m key v) := by
  induction m with
  | nil => by_cases hv : v = Memory.unlisted <;> simp [Memory.update, hv]
  | cons c rest ih =>
    obtain ⟨k, u⟩ := c
    have hk : ∀ c ∈ rest, k < c.1 := (List.pairwise_cons.mp hm).1
    have hr := (List.pairwise_cons.mp hm).2
    by_cases h1 : key < k
    · by_cases hv : v = Memory.unlisted
      · simpa only [Memory.update, h1, if_true, hv] using hm
      · simp only [Memory.update, h1, if_true, hv, if_false]
        refine List.pairwise_cons.mpr ⟨?_, hm⟩
        intro c hc
        rcases List.mem_cons.mp hc with rfl | hc
        · exact h1
        · exact Nat.lt_trans h1 (hk c hc)
    · by_cases h2 : key = k
      · subst h2
        by_cases hv : v = Memory.unlisted
        · simpa only [Memory.update, h1, if_false, if_true, hv] using hr
        · simp only [Memory.update, h1, if_false, if_true, hv]
          exact List.pairwise_cons.mpr ⟨hk, hr⟩
      · simp only [Memory.update, h1, h2, if_false]
        refine List.pairwise_cons.mpr ⟨?_, ih hr⟩
        intro c hc
        rcases Memory.mem_update hc with ⟨rfl, _⟩ | hc
        · change k < key
          omega
        · exact hk c hc

/-- Writing a cell keeps the canonical form. -/
theorem Memory.wf_write {m : Memory} (h : m.wf) (a : CellAddr) (v : Word) : (m.write a v).wf := by
  refine ⟨Memory.pairwise_update h.1 _ _, ?_⟩
  intro c hc
  rcases Memory.mem_update hc with ⟨rfl, hv⟩ | hc
  · exact ⟨a.key_lt, hv⟩
  · exact h.2 c hc

/-- R57: a cell just written reads as what was written. -/
theorem Memory.read_write_same {m : Memory} (h : m.wf) (a : CellAddr) (v : Word) : (m.write a v).read a = v :=
  Memory.lookup_update_same h.1 _ _

/-- Writing a cell leaves every other cell alone. -/
theorem Memory.read_write_other {a b : CellAddr} (h : b ≠ a) (m : Memory) (v : Word) :
    (m.write a v).read b = m.read b :=
  Memory.lookup_update_other (fun e => h (CellAddr.key_inj e)) m v

/-! ### Equal reads, equal data -/

/-- In a memory whose keys rise, a listed entry is what its key reads as. -/
theorem Memory.lookup_of_mem {m : Memory} (hm : List.Pairwise (fun x y : Nat × Word => x.1 < y.1) m)
    {c : Nat × Word} (h : c ∈ m) : Memory.lookup m c.1 = c.2 := by
  induction m with
  | nil => simp at h
  | cons d rest ih =>
    have hd := (List.pairwise_cons.mp hm).1
    rcases List.mem_cons.mp h with rfl | h
    · simp [Memory.lookup]
    · have : ¬ d.1 = c.1 := by have := hd c h; omega
      simp only [Memory.lookup, this, if_false]
      exact ih (List.pairwise_cons.mp hm).2 h

/-- A key that reads as something else than an unlisted cell is listed. -/
theorem Memory.mem_of_lookup {m : Memory} {key : Nat} (h : Memory.lookup m key ≠ Memory.unlisted) :
    (key, Memory.lookup m key) ∈ m := by
  induction m with
  | nil => exact absurd rfl h
  | cons d rest ih =>
    by_cases hd : d.1 = key
    · subst hd
      simp [Memory.lookup]
    · simp only [Memory.lookup, hd, if_false] at h ⊢
      exact List.mem_cons_of_mem _ (ih h)

/-- The canonical form is canonical: two memories in it that read alike at every cell are the same list. -/
theorem Memory.eq_of_read_eq {m n : Memory} (hm : m.wf) (hn : n.wf) (h : ∀ a, m.read a = n.read a) : m = n := by
  have sub : ∀ {m n : Memory}, m.wf → (∀ a, m.read a = n.read a) → ∀ c ∈ m, c ∈ n := by
    intro m n hm h c hc
    have hlt := (hm.2 c hc).1
    have hne := (hm.2 c hc).2
    obtain ⟨a, ha⟩ := CellAddr.exists_key hlt
    have hread : Memory.lookup n c.1 = c.2 := by
      have := h a
      simp only [Memory.read, ha] at this
      rw [← this]
      exact Memory.lookup_of_mem hm.1 hc
    have := Memory.mem_of_lookup (m := n) (key := c.1) (by rw [hread]; exact hne)
    rwa [hread] at this
  have nodup : ∀ {m : Memory}, m.wf → m.Nodup := by
    intro m hm
    exact hm.1.imp (fun hlt e => by rw [e] at hlt; exact Nat.lt_irrefl _ hlt)
  have hperm : m.Perm n :=
    (List.perm_ext_iff_of_nodup (nodup hm) (nodup hn)).mpr
      (fun c => ⟨sub hm h c, sub hn (fun a => (h a).symm) c⟩)
  exact hperm.eq_of_pairwise (le := fun x y : Nat × Word => x.1 < y.1)
    (fun _ _ _ _ h1 h2 => absurd (Nat.lt_trans h1 h2) (Nat.lt_irrefl _)) hm.1 hn.1

/-! ### The ROM image in memory (R48) -/

/-- Placing the ROM image keeps the canonical form. -/
theorem placeRom_wf (rom : List Word) : ∀ (i : Nat) {m : Memory}, m.wf → (placeRom i rom m).wf := by
  induction rom with
  | nil => intro i m h; exact h
  | cons w rest ih => intro i m h; exact ih (i + 1) (Memory.wf_write h _ _)

/-- The key of the cell that word `i` of the image fills. -/
theorem romCell_key {i : Nat} (h : i < Config.maxRomLen) : (romCell i).key = 32768 + i := by
  simp only [Config.maxRomLen] at h
  simp only [romCell, CellAddr.key, Config.romBase, Config.segLen, BitVec.toNat_ofNat]
  omega

/-- What a cell reads as after the image was placed from word `i` on. -/
theorem placeRom_read (rom : List Word) : ∀ (i : Nat) {m : Memory}, m.wf → i + rom.length ≤ Config.maxRomLen →
    ∀ a : CellAddr, (placeRom i rom m).read a =
      if 32768 + i ≤ a.key then (rom[a.key - (32768 + i)]?).getD (m.read a) else m.read a := by
  induction rom with
  | nil => intro i m _ _ a; simp [placeRom]
  | cons w rest ih =>
    intro i m hm hi a
    simp only [List.length_cons] at hi
    rw [placeRom, ih (i + 1) (Memory.wf_write hm _ _) (by omega) a]
    have hk := romCell_key (i := i) (by omega)
    by_cases hlt : a.key < 32768 + i
    · have h1 : ¬ 32768 + (i + 1) ≤ a.key := by omega
      have h2 : ¬ 32768 + i ≤ a.key := by omega
      rw [if_neg h1, if_neg h2]
      exact Memory.read_write_other (fun e => by rw [e, hk] at hlt; omega) m w
    · by_cases he : a.key = 32768 + i
      · have : a = romCell i := CellAddr.key_inj (by rw [he, hk])
        have h1 : ¬ 32768 + (i + 1) ≤ a.key := by omega
        rw [if_neg h1, if_pos (by omega), he, Nat.sub_self]
        simp only [List.getElem?_cons_zero, Option.getD_some]
        rw [this]
        exact Memory.read_write_same hm _ _
      · have hne : a ≠ romCell i := fun e => he (by rw [e, hk])
        have h1 : 32768 + (i + 1) ≤ a.key := by omega
        rw [if_pos h1, if_pos (by omega), Memory.read_write_other hne]
        have : a.key - (32768 + i) = (a.key - (32768 + (i + 1))) + 1 := by omega
        rw [this, List.getElem?_cons_succ]

end Sys2Proof.Machine
end

