-- ==== Sys2Proof/Laws/State.lean ====
section
/-! SUPPORT. One lemma per field per update of the state: no later proof unfolds a record update. -/

namespace Sys2Proof.Machine

variable (s : State)

/-! ### `State.writeReg` -/

@[simp] theorem State.writeReg_regs (r : RegIx) (v : Word) : (s.writeReg r v).regs = s.regs.set r.val v := rfl
@[simp] theorem State.writeReg_pc (r : RegIx) (v : Word) : (s.writeReg r v).pc = s.pc := rfl
@[simp] theorem State.writeReg_mem (r : RegIx) (v : Word) : (s.writeReg r v).mem = s.mem := rfl
@[simp] theorem State.writeReg_run (r : RegIx) (v : Word) : (s.writeReg r v).run = s.run := rfl
@[simp] theorem State.writeReg_cause (r : RegIx) (v : Word) : (s.writeReg r v).cause = s.cause := rfl
@[simp] theorem State.writeReg_exitStatus (r : RegIx) (v : Word) : (s.writeReg r v).exitStatus = s.exitStatus := rfl
@[simp] theorem State.writeReg_diag (r : RegIx) (v : Word) : (s.writeReg r v).diag = s.diag := rfl
@[simp] theorem State.writeReg_keyq (r : RegIx) (v : Word) : (s.writeReg r v).keyq = s.keyq := rfl
@[simp] theorem State.writeReg_tickPending (r : RegIx) (v : Word) : (s.writeReg r v).tickPending = s.tickPending := rfl
@[simp] theorem State.writeReg_kbdStopped (r : RegIx) (v : Word) : (s.writeReg r v).kbdStopped = s.kbdStopped := rfl
@[simp] theorem State.writeReg_displayRefreshes (r : RegIx) (v : Word) : (s.writeReg r v).displayRefreshes = s.displayRefreshes := rfl
@[simp] theorem State.writeReg_code (r : RegIx) (v : Word) : (s.writeReg r v).code = s.code := rfl
@[simp] theorem State.writeReg_rom (r : RegIx) (v : Word) : (s.writeReg r v).rom = s.rom := rfl
@[simp] theorem State.writeReg_indexPolicy (r : RegIx) (v : Word) : (s.writeReg r v).indexPolicy = s.indexPolicy := rfl
@[simp] theorem State.writeReg_keyIn (r : RegIx) (v : Word) : (s.writeReg r v).keyIn = s.keyIn := rfl
@[simp] theorem State.writeReg_schedule (r : RegIx) (v : Word) : (s.writeReg r v).schedule = s.schedule := rfl

/-! ### `State.writeCell` -/

@[simp] theorem State.writeCell_regs (a : CellAddr) (v : Word) : (s.writeCell a v).regs = s.regs := rfl
@[simp] theorem State.writeCell_pc (a : CellAddr) (v : Word) : (s.writeCell a v).pc = s.pc := rfl
@[simp] theorem State.writeCell_mem (a : CellAddr) (v : Word) : (s.writeCell a v).mem = s.mem.write a v := rfl
@[simp] theorem State.writeCell_run (a : CellAddr) (v : Word) : (s.writeCell a v).run = s.run := rfl
@[simp] theorem State.writeCell_cause (a : CellAddr) (v : Word) : (s.writeCell a v).cause = s.cause := rfl
@[simp] theorem State.writeCell_exitStatus (a : CellAddr) (v : Word) : (s.writeCell a v).exitStatus = s.exitStatus := rfl
@[simp] theorem State.writeCell_diag (a : CellAddr) (v : Word) : (s.writeCell a v).diag = s.diag := rfl
@[simp] theorem State.writeCell_keyq (a : CellAddr) (v : Word) : (s.writeCell a v).keyq = s.keyq := rfl
@[simp] theorem State.writeCell_tickPending (a : CellAddr) (v : Word) : (s.writeCell a v).tickPending = s.tickPending := rfl
@[simp] theorem State.writeCell_kbdStopped (a : CellAddr) (v : Word) : (s.writeCell a v).kbdStopped = s.kbdStopped := rfl
@[simp] theorem State.writeCell_displayRefreshes (a : CellAddr) (v : Word) : (s.writeCell a v).displayRefreshes = s.displayRefreshes := rfl
@[simp] theorem State.writeCell_code (a : CellAddr) (v : Word) : (s.writeCell a v).code = s.code := rfl
@[simp] theorem State.writeCell_rom (a : CellAddr) (v : Word) : (s.writeCell a v).rom = s.rom := rfl
@[simp] theorem State.writeCell_indexPolicy (a : CellAddr) (v : Word) : (s.writeCell a v).indexPolicy = s.indexPolicy := rfl
@[simp] theorem State.writeCell_keyIn (a : CellAddr) (v : Word) : (s.writeCell a v).keyIn = s.keyIn := rfl
@[simp] theorem State.writeCell_schedule (a : CellAddr) (v : Word) : (s.writeCell a v).schedule = s.schedule := rfl

/-! ### `State.setPc` -/

@[simp] theorem State.setPc_regs (v : Word) : (s.setPc v).regs = s.regs := rfl
@[simp] theorem State.setPc_pc (v : Word) : (s.setPc v).pc = v := rfl
@[simp] theorem State.setPc_mem (v : Word) : (s.setPc v).mem = s.mem := rfl
@[simp] theorem State.setPc_run (v : Word) : (s.setPc v).run = s.run := rfl
@[simp] theorem State.setPc_cause (v : Word) : (s.setPc v).cause = s.cause := rfl
@[simp] theorem State.setPc_exitStatus (v : Word) : (s.setPc v).exitStatus = s.exitStatus := rfl
@[simp] theorem State.setPc_diag (v : Word) : (s.setPc v).diag = s.diag := rfl
@[simp] theorem State.setPc_keyq (v : Word) : (s.setPc v).keyq = s.keyq := rfl
@[simp] theorem State.setPc_tickPending (v : Word) : (s.setPc v).tickPending = s.tickPending := rfl
@[simp] theorem State.setPc_kbdStopped (v : Word) : (s.setPc v).kbdStopped = s.kbdStopped := rfl
@[simp] theorem State.setPc_displayRefreshes (v : Word) : (s.setPc v).displayRefreshes = s.displayRefreshes := rfl
@[simp] theorem State.setPc_code (v : Word) : (s.setPc v).code = s.code := rfl
@[simp] theorem State.setPc_rom (v : Word) : (s.setPc v).rom = s.rom := rfl
@[simp] theorem State.setPc_indexPolicy (v : Word) : (s.setPc v).indexPolicy = s.indexPolicy := rfl
@[simp] theorem State.setPc_keyIn (v : Word) : (s.setPc v).keyIn = s.keyIn := rfl
@[simp] theorem State.setPc_schedule (v : Word) : (s.setPc v).schedule = s.schedule := rfl

/-! ### `State.advancePc` -/

@[simp] theorem State.advancePc_regs : (s.advancePc).regs = s.regs := rfl
@[simp] theorem State.advancePc_pc : (s.advancePc).pc = s.pc + 1#16 := rfl
@[simp] theorem State.advancePc_mem : (s.advancePc).mem = s.mem := rfl
@[simp] theorem State.advancePc_run : (s.advancePc).run = s.run := rfl
@[simp] theorem State.advancePc_cause : (s.advancePc).cause = s.cause := rfl
@[simp] theorem State.advancePc_exitStatus : (s.advancePc).exitStatus = s.exitStatus := rfl
@[simp] theorem State.advancePc_diag : (s.advancePc).diag = s.diag := rfl
@[simp] theorem State.advancePc_keyq : (s.advancePc).keyq = s.keyq := rfl
@[simp] theorem State.advancePc_tickPending : (s.advancePc).tickPending = s.tickPending := rfl
@[simp] theorem State.advancePc_kbdStopped : (s.advancePc).kbdStopped = s.kbdStopped := rfl
@[simp] theorem State.advancePc_displayRefreshes : (s.advancePc).displayRefreshes = s.displayRefreshes := rfl
@[simp] theorem State.advancePc_code : (s.advancePc).code = s.code := rfl
@[simp] theorem State.advancePc_rom : (s.advancePc).rom = s.rom := rfl
@[simp] theorem State.advancePc_indexPolicy : (s.advancePc).indexPolicy = s.indexPolicy := rfl
@[simp] theorem State.advancePc_keyIn : (s.advancePc).keyIn = s.keyIn := rfl
@[simp] theorem State.advancePc_schedule : (s.advancePc).schedule = s.schedule := rfl

/-! ### `State.jumpTo` -/

@[simp] theorem State.jumpTo_regs (rs ro : RegIx) : (s.jumpTo rs ro).regs = s.regs := rfl
@[simp] theorem State.jumpTo_pc (rs ro : RegIx) : (s.jumpTo rs ro).pc = jumpTarget (s.readReg rs) (s.readReg ro) := rfl
@[simp] theorem State.jumpTo_mem (rs ro : RegIx) : (s.jumpTo rs ro).mem = s.mem := rfl
@[simp] theorem State.jumpTo_run (rs ro : RegIx) : (s.jumpTo rs ro).run = s.run := rfl
@[simp] theorem State.jumpTo_cause (rs ro : RegIx) : (s.jumpTo rs ro).cause = s.cause := rfl
@[simp] theorem State.jumpTo_exitStatus (rs ro : RegIx) : (s.jumpTo rs ro).exitStatus = s.exitStatus := rfl
@[simp] theorem State.jumpTo_diag (rs ro : RegIx) : (s.jumpTo rs ro).diag = s.diag := rfl
@[simp] theorem State.jumpTo_keyq (rs ro : RegIx) : (s.jumpTo rs ro).keyq = s.keyq := rfl
@[simp] theorem State.jumpTo_tickPending (rs ro : RegIx) : (s.jumpTo rs ro).tickPending = s.tickPending := rfl
@[simp] theorem State.jumpTo_kbdStopped (rs ro : RegIx) : (s.jumpTo rs ro).kbdStopped = s.kbdStopped := rfl
@[simp] theorem State.jumpTo_displayRefreshes (rs ro : RegIx) : (s.jumpTo rs ro).displayRefreshes = s.displayRefreshes := rfl
@[simp] theorem State.jumpTo_code (rs ro : RegIx) : (s.jumpTo rs ro).code = s.code := rfl
@[simp] theorem State.jumpTo_rom (rs ro : RegIx) : (s.jumpTo rs ro).rom = s.rom := rfl
@[simp] theorem State.jumpTo_indexPolicy (rs ro : RegIx) : (s.jumpTo rs ro).indexPolicy = s.indexPolicy := rfl
@[simp] theorem State.jumpTo_keyIn (rs ro : RegIx) : (s.jumpTo rs ro).keyIn = s.keyIn := rfl
@[simp] theorem State.jumpTo_schedule (rs ro : RegIx) : (s.jumpTo rs ro).schedule = s.schedule := rfl

/-! ### `State.raise` -/

@[simp] theorem State.raise_regs (t : Termination) : (s.raise t).regs = s.regs := rfl
@[simp] theorem State.raise_pc (t : Termination) : (s.raise t).pc = s.pc := rfl
@[simp] theorem State.raise_mem (t : Termination) : (s.raise t).mem = s.mem := rfl
@[simp] theorem State.raise_run (t : Termination) : (s.raise t).run = .terminated := rfl
@[simp] theorem State.raise_cause (t : Termination) : (s.raise t).cause = t.cause := rfl
@[simp] theorem State.raise_exitStatus (t : Termination) : (s.raise t).exitStatus = some t.status := rfl
@[simp] theorem State.raise_diag (t : Termination) : (s.raise t).diag = s.diag ++ t.diagnostics := rfl
@[simp] theorem State.raise_keyq (t : Termination) : (s.raise t).keyq = s.keyq := rfl
@[simp] theorem State.raise_tickPending (t : Termination) : (s.raise t).tickPending = s.tickPending := rfl
@[simp] theorem State.raise_kbdStopped (t : Termination) : (s.raise t).kbdStopped = s.kbdStopped := rfl
@[simp] theorem State.raise_displayRefreshes (t : Termination) : (s.raise t).displayRefreshes = s.displayRefreshes := rfl
@[simp] theorem State.raise_code (t : Termination) : (s.raise t).code = s.code := rfl
@[simp] theorem State.raise_rom (t : Termination) : (s.raise t).rom = s.rom := rfl
@[simp] theorem State.raise_indexPolicy (t : Termination) : (s.raise t).indexPolicy = s.indexPolicy := rfl
@[simp] theorem State.raise_keyIn (t : Termination) : (s.raise t).keyIn = s.keyIn := rfl
@[simp] theorem State.raise_schedule (t : Termination) : (s.raise t).schedule = s.schedule := rfl

/-! ### `State.takeTurn` -/

@[simp] theorem State.takeTurn_regs : (s.takeTurn).regs = s.regs := rfl
@[simp] theorem State.takeTurn_pc : (s.takeTurn).pc = s.pc := rfl
@[simp] theorem State.takeTurn_mem : (s.takeTurn).mem = s.mem := rfl
@[simp] theorem State.takeTurn_run : (s.takeTurn).run = s.run := rfl
@[simp] theorem State.takeTurn_cause : (s.takeTurn).cause = s.cause := rfl
@[simp] theorem State.takeTurn_exitStatus : (s.takeTurn).exitStatus = s.exitStatus := rfl
@[simp] theorem State.takeTurn_diag : (s.takeTurn).diag = s.diag := rfl
@[simp] theorem State.takeTurn_keyq : (s.takeTurn).keyq = s.keyq := rfl
@[simp] theorem State.takeTurn_tickPending : (s.takeTurn).tickPending = s.tickPending := rfl
@[simp] theorem State.takeTurn_kbdStopped : (s.takeTurn).kbdStopped = s.kbdStopped := rfl
@[simp] theorem State.takeTurn_displayRefreshes : (s.takeTurn).displayRefreshes = s.displayRefreshes := rfl
@[simp] theorem State.takeTurn_code : (s.takeTurn).code = s.code := rfl
@[simp] theorem State.takeTurn_rom : (s.takeTurn).rom = s.rom := rfl
@[simp] theorem State.takeTurn_indexPolicy : (s.takeTurn).indexPolicy = s.indexPolicy := rfl
@[simp] theorem State.takeTurn_keyIn : (s.takeTurn).keyIn = s.keyIn := rfl
@[simp] theorem State.takeTurn_schedule : (s.takeTurn).schedule = s.schedule.tail := rfl

/-! ### Registers and cells through the updates -/

/-- A register that was just written reads as what was written (R13). -/
@[simp] theorem State.readReg_writeReg_same (r : RegIx) (v : Word) : (s.writeReg r v).readReg r = v := by
  simp [State.readReg]

/-- Writing one register leaves every other one. -/
theorem State.readReg_writeReg_other {r q : RegIx} (h : q ≠ r) (v : Word) :
    (s.writeReg r v).readReg q = s.readReg q := by
  have h' : r.val ≠ q.val := fun e => h (Fin.ext e.symm)
  simp [State.readReg, Vector.getElem_set_ne _ _ h']

@[simp] theorem State.readReg_writeCell (a : CellAddr) (v : Word) (q : RegIx) :
    (s.writeCell a v).readReg q = s.readReg q := rfl

@[simp] theorem State.readReg_setPc (v : Word) (q : RegIx) : (s.setPc v).readReg q = s.readReg q := rfl

@[simp] theorem State.readReg_jumpTo (rs ro q : RegIx) : (s.jumpTo rs ro).readReg q = s.readReg q := rfl

@[simp] theorem State.readReg_advancePc (q : RegIx) : s.advancePc.readReg q = s.readReg q := rfl

@[simp] theorem State.readReg_raise (t : Termination) (q : RegIx) : (s.raise t).readReg q = s.readReg q := rfl

@[simp] theorem State.readReg_takeTurn (q : RegIx) : s.takeTurn.readReg q = s.readReg q := rfl

@[simp] theorem State.readCell_writeReg (r : RegIx) (v : Word) (a : CellAddr) :
    (s.writeReg r v).readCell a = s.readCell a := rfl

@[simp] theorem State.readCell_setPc (v : Word) (a : CellAddr) : (s.setPc v).readCell a = s.readCell a := rfl

@[simp] theorem State.readCell_advancePc (a : CellAddr) : s.advancePc.readCell a = s.readCell a := rfl

@[simp] theorem State.readCell_jumpTo (rs ro : RegIx) (a : CellAddr) :
    (s.jumpTo rs ro).readCell a = s.readCell a := rfl

@[simp] theorem State.readCell_raise (t : Termination) (a : CellAddr) : (s.raise t).readCell a = s.readCell a := rfl

@[simp] theorem State.readCell_takeTurn (a : CellAddr) : s.takeTurn.readCell a = s.readCell a := rfl

end Sys2Proof.Machine
end

