-- ==== Sys2Proof/Laws/Exec.lean ====
section
/-! SUPPORT. What the shared operations and `exec` can do, said once; later proofs cite these and unfold no meaning. -/

namespace Sys2Proof.Machine

open Host (Outcome)

/-! ### Operands and flags -/

/-- R9: the whole count is used, so a count of 16 or more gives 0. -/
theorem toNat_shiftLeft (v n : Word) : (shiftLeft v n).toNat = v.toNat * 2 ^ n.toNat % 65536 := by
  simp [shiftLeft, BitVec.toNat_shiftLeft, Nat.shiftLeft_eq]

/-- R9: a logical shift right is a division by a power of two. -/
theorem toNat_shiftRight (v n : Word) : (shiftRight v n).toNat = v.toNat / 2 ^ n.toNat := by
  simp [shiftRight, BitVec.toNat_ushiftRight, Nat.shiftRight_eq_div_pow]

/-- R66: the immediate is zero-extended, the same number. -/
theorem toNat_zext16 (b : BitVec 8) : (zext16 b).toNat = b.toNat := by
  have := b.isLt
  simp [zext16, BitVec.toNat_setWidth]
  omega

/-- R44: the index is the low 8 bits. -/
theorem toNat_idx8 (v : Word) : (idx8 v).toNat = v.toNat % 256 := by
  simp [idx8, BitVec.toNat_setWidth]

/-- The cell an address pair names, when it names one (R44, R45, R101). -/
theorem cellAddress_eq_some {p : Config.IndexPolicy} {seg off : Word} {a : CellAddr}
    (h : cellAddress p seg off = some a) :
    a = { seg := idx8 seg, off := idx8 off } ∧ (p = .truncate ∨ (seg.toNat < 256 ∧ off.toNat < 256)) := by
  cases p with
  | truncate => exact ⟨by simpa [cellAddress] using h.symm, .inl rfl⟩
  | fault =>
    by_cases hc : Config.nSeg ≤ seg.toNat ∨ Config.segLen ≤ off.toNat
    · simp [cellAddress, hc] at h
    · simp only [cellAddress, if_neg hc, Option.some.injEq] at h
      simp only [Config.nSeg, Config.segLen] at hc
      exact ⟨h.symm, .inr (by omega)⟩

/-- When a pair names no cell: only under the policy `fault`, for an index of 256 or more (R45). -/
theorem cellAddress_eq_none {p : Config.IndexPolicy} {seg off : Word} :
    cellAddress p seg off = none ↔ p = .fault ∧ (256 ≤ seg.toNat ∨ 256 ≤ off.toNat) := by
  cases p with
  | truncate => simp [cellAddress]
  | fault =>
    have h : (Config.nSeg ≤ seg.toNat ∨ Config.segLen ≤ off.toNat) ↔ (256 ≤ seg.toNat ∨ 256 ≤ off.toNat) := Iff.rfl
    by_cases hc : Config.nSeg ≤ seg.toNat ∨ Config.segLen ≤ off.toNat
    · simp [cellAddress, hc, h.mp hc]
    · simp [cellAddress, hc, mt h.mpr hc]

/-- Under the default policy every pair of values names a cell (R44). -/
@[simp] theorem cellAddress_truncate (seg off : Word) :
    cellAddress .truncate seg off = some { seg := idx8 seg, off := idx8 off } := rfl

/-- R103: the check sees the whole value; it stops the store from 128 on. -/
theorem readOnlySegment_eq_true {seg : Word} : readOnlySegment seg = true ↔ 128 ≤ seg.toNat :=
  decide_eq_true_iff

/-- R103: a value below 128 passes the check. -/
theorem readOnlySegment_eq_false {seg : Word} : readOnlySegment seg = false ↔ seg.toNat < 128 :=
  decide_eq_false_iff_not.trans Nat.not_le

/-- A test for a small constant is a test of the number (R99). -/
theorem beq_eq_decide_toNat (v k : Word) : (v == k) = decide (v.toNat = k.toNat) := by
  rw [Bool.eq_iff_iff]
  simp [BitVec.toNat_inj]

/-- R95: the three outcomes of a comparison. -/
theorem compareFlag_cases (a b : Word) :
    (a.toNat < b.toNat ∧ compareFlag a b = 0#16) ∨ (a.toNat = b.toNat ∧ compareFlag a b = 1#16) ∨
    (b.toNat < a.toNat ∧ compareFlag a b = 2#16) := by
  unfold compareFlag
  split
  · exact .inl ⟨‹_›, rfl⟩
  · split
    · exact .inr (.inr ⟨‹_›, rfl⟩)
    · exact .inr (.inl ⟨by omega, rfl⟩)

/-- R93, R19: after the increment a jump's target is `segment * 256 + offset` modulo 65536. -/
theorem toNat_jumpTarget_succ (seg off : Word) :
    (jumpTarget seg off + 1#16).toNat = (seg.toNat * 256 + off.toNat) % 65536 := by
  simp only [jumpTarget, BitVec.sub_add_cancel, BitVec.toNat_add, BitVec.toNat_mul, BitVec.toNat_ofNat]
  omega

/-! ### `exec` -/

/-- Which termination an instruction raises in a state, and when (R80, R103, R45). -/
def Raises (i : Instr) (s : State) (x : Termination) : Prop :=
  (x = .halt ∧ ∃ ignored, i = .halt ignored) ∨
  (x = .illegalWrite ∧ ∃ rv rs ro, i = .str rv rs ro ∧ readOnlySegment (s.readReg rs) = true) ∨
  (x = .indexOutOfRange ∧ ∃ r rs ro,
    (i = .ldr r rs ro ∨ (i = .str r rs ro ∧ readOnlySegment (s.readReg rs) = false)) ∧
      cellAddress s.indexPolicy (s.readReg rs) (s.readReg ro) = none)

/-- Everything `exec` can do: write the one register R15 names, jump, nothing, store one cell, or raise. -/
theorem exec_cases {i : Instr} {s t : State} (h : exec i s = .next t) :
    (∃ r v, i.written = some r ∧ t = s.writeReg r v) ∨
    (∃ rs ro, i.jumpsThrough = some (rs, ro) ∧ t = s.jumpTo rs ro) ∨
    t = s ∨
    (∃ rv rs ro a, i = .str rv rs ro ∧ readOnlySegment (s.readReg rs) = false ∧
      cellAddress s.indexPolicy (s.readReg rs) (s.readReg ro) = some a ∧ t = s.writeCell a (s.readReg rv)) ∨
    (∃ x, Raises i s x ∧ t = s.raise x) := by
  cases i with
  | halt g => exact .inr (.inr (.inr (.inr ⟨.halt, .inl ⟨rfl, g, rfl⟩, (Outcome.next.inj h).symm⟩)))
  | cpy rd rs => exact .inl ⟨_, _, rfl, (Outcome.next.inj h).symm⟩
  | not rd rs => exact .inl ⟨_, _, rfl, (Outcome.next.inj h).symm⟩
  | lsl rn g => exact .inl ⟨_, _, rfl, (Outcome.next.inj h).symm⟩
  | lsr rn g => exact .inl ⟨_, _, rfl, (Outcome.next.inj h).symm⟩
  | jmp rs ro => exact .inr (.inl ⟨_, _, rfl, (Outcome.next.inj h).symm⟩)
  | nop g => exact .inr (.inr (.inl (Outcome.next.inj h).symm))
  | add rd ra rb => exact .inl ⟨_, _, rfl, (Outcome.next.inj h).symm⟩
  | sub rd ra rb => exact .inl ⟨_, _, rfl, (Outcome.next.inj h).symm⟩
  | addc rd b => exact .inl ⟨_, _, rfl, (Outcome.next.inj h).symm⟩
  | subc rd b => exact .inl ⟨_, _, rfl, (Outcome.next.inj h).symm⟩
  | cmp rf ra rb => exact .inl ⟨_, _, rfl, (Outcome.next.inj h).symm⟩
  | jlt rf rs ro =>
    simp only [exec, execJlt, Outcome.next.injEq] at h
    split at h
    · exact .inr (.inl ⟨_, _, rfl, h.symm⟩)
    · exact .inr (.inr (.inl h.symm))
  | jgt rf rs ro =>
    simp only [exec, execJgt, Outcome.next.injEq] at h
    split at h
    · exact .inr (.inl ⟨_, _, rfl, h.symm⟩)
    · exact .inr (.inr (.inl h.symm))
  | jeq rf rs ro =>
    simp only [exec, execJeq, Outcome.next.injEq] at h
    split at h
    · exact .inr (.inl ⟨_, _, rfl, h.symm⟩)
    · exact .inr (.inr (.inl h.symm))
  | ldr rd rs ro =>
    simp only [exec, execLdr] at h
    split at h
    · exact .inl ⟨_, _, rfl, (Outcome.next.inj h).symm⟩
    · exact .inr (.inr (.inr (.inr ⟨.indexOutOfRange,
        .inr (.inr ⟨rfl, rd, rs, ro, .inl rfl, ‹_›⟩), (Outcome.next.inj h).symm⟩)))
  | str rv rs ro =>
    simp only [exec, execStr] at h
    split at h
    · exact .inr (.inr (.inr (.inr ⟨.illegalWrite,
        .inr (.inl ⟨rfl, rv, rs, ro, rfl, ‹_›⟩), (Outcome.next.inj h).symm⟩)))
    · rename_i hro
      have hro' : readOnlySegment (s.readReg rs) = false := by simpa using hro
      split at h
      · exact .inr (.inr (.inr (.inl ⟨rv, rs, ro, _, rfl, hro', ‹_›, (Outcome.next.inj h).symm⟩)))
      · exact .inr (.inr (.inr (.inr ⟨.indexOutOfRange,
          .inr (.inr ⟨rfl, rv, rs, ro, .inr ⟨rfl, hro'⟩, ‹_›⟩), (Outcome.next.inj h).symm⟩)))
  | lrc rd b => exact .inl ⟨_, _, rfl, (Outcome.next.inj h).symm⟩
  | and rd ra rb => exact .inl ⟨_, _, rfl, (Outcome.next.inj h).symm⟩
  | or rd ra rb => exact .inl ⟨_, _, rfl, (Outcome.next.inj h).symm⟩
  | xor rd ra rb => exact .inl ⟨_, _, rfl, (Outcome.next.inj h).symm⟩
  | unmappedExt7 g => exact .inr (.inr (.inl (Outcome.next.inj h).symm))
  | unmappedExt8F a g => exact .inr (.inr (.inl (Outcome.next.inj h).symm))
  | unmappedF g => exact .inr (.inr (.inl (Outcome.next.inj h).symm))

/-- Every instruction completes in every state: no encoding traps to nowhere, faults or is refused (R65, R72). -/
theorem exec_answers (i : Instr) (s : State) : ∃ t, exec i s = .next t := by
  cases i with
  | ldr rd rs ro =>
    simp only [exec, execLdr]
    split <;> exact ⟨_, rfl⟩
  | str rv rs ro =>
    simp only [exec, execStr]
    split
    · exact ⟨_, rfl⟩
    · split <;> exact ⟨_, rfl⟩
  | _ => exact ⟨_, rfl⟩

end Sys2Proof.Machine
end

