-- ==== Sys2Proof/Laws/PerInstr.lean ====
section
/-! SUPPORT. The per-instruction family `EncodedInItsRow`: the word of a well-formed instruction matches the row of the
opcode table that bears its name (R69, R72). -/

namespace Sys2Proof.Laws.EncodedInItsRow

/-- The encoded word satisfies the match and mask of the instruction's own row. -/
def Statement (i : Instr) : Prop :=
  i.wf = true → ∃ row ∈ opcodeTable, row.mnemonic = i.mnemonic ∧ encode i &&& row.mask = row.pattern

end Sys2Proof.Laws.EncodedInItsRow

namespace Sys2Proof

/-- A row of a primary opcode looks at the opcode field alone (R69). -/
theorem joinFields_and_primary (o a b c : BitVec 4) :
    joinFields { opcode := o, arg0 := a, arg1 := b, arg2 := c } &&& 0xF000#16 =
      joinFields { opcode := o, arg0 := 0#4, arg1 := 0#4, arg2 := 0#4 } := by
  have h : (0xF000#16 : Word) = joinFields { opcode := 0xF#4, arg0 := 0#4, arg1 := 0#4, arg2 := 0#4 } := rfl
  have ho : o &&& 0xF#4 = o := by revert o; decide
  rw [h, joinFields_and]
  simp [ho]

/-- A row of one sub-opcode looks at the opcode and `arg0` (R70). -/
theorem joinFields_and_extended (o a b c : BitVec 4) :
    joinFields { opcode := o, arg0 := a, arg1 := b, arg2 := c } &&& 0xFF00#16 =
      joinFields { opcode := o, arg0 := a, arg1 := 0#4, arg2 := 0#4 } := by
  have h : (0xFF00#16 : Word) = joinFields { opcode := 0xF#4, arg0 := 0xF#4, arg1 := 0#4, arg2 := 0#4 } := rfl
  have ho : o &&& 0xF#4 = o := by revert o; decide
  have ha : a &&& 0xF#4 = a := by revert a; decide
  rw [h, joinFields_and]
  simp [ho, ha]

/-- The row of the sub-opcodes 8 to 15 looks at the opcode and the top bit of `arg0` (R72). -/
theorem joinFields_and_upperHalf (a b c : BitVec 4) (ha : 8 ≤ a.toNat) :
    joinFields { opcode := 0#4, arg0 := a, arg1 := b, arg2 := c } &&& 0xF800#16 = 0x0800#16 := by
  have h : (0xF800#16 : Word) = joinFields { opcode := 0xF#4, arg0 := 0x8#4, arg1 := 0#4, arg2 := 0#4 } := rfl
  have ha' : a &&& 0x8#4 = 0x8#4 := by revert a; decide
  rw [h, joinFields_and]
  simp only [ha', BitVec.and_zero, BitVec.zero_and]
  rfl

end Sys2Proof

open Sys2Proof

theorem Sys2Proof.Laws.EncodedInItsRow.halt (g : BitVec 8) :
    Sys2Proof.Laws.EncodedInItsRow.Statement (.halt g) :=
  fun _ => ⟨⟨"HALT", 0x0000#16, 0xFF00#16⟩, by simp [opcodeTable], rfl, joinFields_and_extended _ _ _ _⟩

theorem Sys2Proof.Laws.EncodedInItsRow.cpy (r0 r1 : RegIx) :
    Sys2Proof.Laws.EncodedInItsRow.Statement (.cpy r0 r1) :=
  fun _ => ⟨⟨"CPY", 0x0100#16, 0xFF00#16⟩, by simp [opcodeTable], rfl, joinFields_and_extended _ _ _ _⟩

theorem Sys2Proof.Laws.EncodedInItsRow.not (r0 r1 : RegIx) :
    Sys2Proof.Laws.EncodedInItsRow.Statement (.not r0 r1) :=
  fun _ => ⟨⟨"NOT", 0x0200#16, 0xFF00#16⟩, by simp [opcodeTable], rfl, joinFields_and_extended _ _ _ _⟩

theorem Sys2Proof.Laws.EncodedInItsRow.lsl (r0 : RegIx) (g : BitVec 4) :
    Sys2Proof.Laws.EncodedInItsRow.Statement (.lsl r0 g) :=
  fun _ => ⟨⟨"LSL", 0x0300#16, 0xFF00#16⟩, by simp [opcodeTable], rfl, joinFields_and_extended _ _ _ _⟩

theorem Sys2Proof.Laws.EncodedInItsRow.lsr (r0 : RegIx) (g : BitVec 4) :
    Sys2Proof.Laws.EncodedInItsRow.Statement (.lsr r0 g) :=
  fun _ => ⟨⟨"LSR", 0x0400#16, 0xFF00#16⟩, by simp [opcodeTable], rfl, joinFields_and_extended _ _ _ _⟩

theorem Sys2Proof.Laws.EncodedInItsRow.jmp (r0 r1 : RegIx) :
    Sys2Proof.Laws.EncodedInItsRow.Statement (.jmp r0 r1) :=
  fun _ => ⟨⟨"JMP", 0x0500#16, 0xFF00#16⟩, by simp [opcodeTable], rfl, joinFields_and_extended _ _ _ _⟩

theorem Sys2Proof.Laws.EncodedInItsRow.nop (g : BitVec 8) :
    Sys2Proof.Laws.EncodedInItsRow.Statement (.nop g) :=
  fun _ => ⟨⟨"NOP", 0x0600#16, 0xFF00#16⟩, by simp [opcodeTable], rfl, joinFields_and_extended _ _ _ _⟩

theorem Sys2Proof.Laws.EncodedInItsRow.add (r0 r1 r2 : RegIx) :
    Sys2Proof.Laws.EncodedInItsRow.Statement (.add r0 r1 r2) :=
  fun _ => ⟨⟨"ADD", 0x1000#16, 0xF000#16⟩, by simp [opcodeTable], rfl, joinFields_and_primary _ _ _ _⟩

theorem Sys2Proof.Laws.EncodedInItsRow.sub (r0 r1 r2 : RegIx) :
    Sys2Proof.Laws.EncodedInItsRow.Statement (.sub r0 r1 r2) :=
  fun _ => ⟨⟨"SUB", 0x2000#16, 0xF000#16⟩, by simp [opcodeTable], rfl, joinFields_and_primary _ _ _ _⟩

theorem Sys2Proof.Laws.EncodedInItsRow.addc (r0 : RegIx) (i : BitVec 8) :
    Sys2Proof.Laws.EncodedInItsRow.Statement (.addc r0 i) :=
  fun _ => ⟨⟨"ADDC", 0x3000#16, 0xF000#16⟩, by simp [opcodeTable], rfl, joinFields_and_primary _ _ _ _⟩

theorem Sys2Proof.Laws.EncodedInItsRow.subc (r0 : RegIx) (i : BitVec 8) :
    Sys2Proof.Laws.EncodedInItsRow.Statement (.subc r0 i) :=
  fun _ => ⟨⟨"SUBC", 0x4000#16, 0xF000#16⟩, by simp [opcodeTable], rfl, joinFields_and_primary _ _ _ _⟩

theorem Sys2Proof.Laws.EncodedInItsRow.cmp (r0 r1 r2 : RegIx) :
    Sys2Proof.Laws.EncodedInItsRow.Statement (.cmp r0 r1 r2) :=
  fun _ => ⟨⟨"CMP", 0x5000#16, 0xF000#16⟩, by simp [opcodeTable], rfl, joinFields_and_primary _ _ _ _⟩

theorem Sys2Proof.Laws.EncodedInItsRow.jlt (r0 r1 r2 : RegIx) :
    Sys2Proof.Laws.EncodedInItsRow.Statement (.jlt r0 r1 r2) :=
  fun _ => ⟨⟨"JLT", 0x6000#16, 0xF000#16⟩, by simp [opcodeTable], rfl, joinFields_and_primary _ _ _ _⟩

theorem Sys2Proof.Laws.EncodedInItsRow.jgt (r0 r1 r2 : RegIx) :
    Sys2Proof.Laws.EncodedInItsRow.Statement (.jgt r0 r1 r2) :=
  fun _ => ⟨⟨"JGT", 0x7000#16, 0xF000#16⟩, by simp [opcodeTable], rfl, joinFields_and_primary _ _ _ _⟩

theorem Sys2Proof.Laws.EncodedInItsRow.jeq (r0 r1 r2 : RegIx) :
    Sys2Proof.Laws.EncodedInItsRow.Statement (.jeq r0 r1 r2) :=
  fun _ => ⟨⟨"JEQ", 0x8000#16, 0xF000#16⟩, by simp [opcodeTable], rfl, joinFields_and_primary _ _ _ _⟩

theorem Sys2Proof.Laws.EncodedInItsRow.ldr (r0 r1 r2 : RegIx) :
    Sys2Proof.Laws.EncodedInItsRow.Statement (.ldr r0 r1 r2) :=
  fun _ => ⟨⟨"LDR", 0x9000#16, 0xF000#16⟩, by simp [opcodeTable], rfl, joinFields_and_primary _ _ _ _⟩

theorem Sys2Proof.Laws.EncodedInItsRow.str (r0 r1 r2 : RegIx) :
    Sys2Proof.Laws.EncodedInItsRow.Statement (.str r0 r1 r2) :=
  fun _ => ⟨⟨"STR", 0xA000#16, 0xF000#16⟩, by simp [opcodeTable], rfl, joinFields_and_primary _ _ _ _⟩

theorem Sys2Proof.Laws.EncodedInItsRow.lrc (r0 : RegIx) (i : BitVec 8) :
    Sys2Proof.Laws.EncodedInItsRow.Statement (.lrc r0 i) :=
  fun _ => ⟨⟨"LRC", 0xB000#16, 0xF000#16⟩, by simp [opcodeTable], rfl, joinFields_and_primary _ _ _ _⟩

theorem Sys2Proof.Laws.EncodedInItsRow.and (r0 r1 r2 : RegIx) :
    Sys2Proof.Laws.EncodedInItsRow.Statement (.and r0 r1 r2) :=
  fun _ => ⟨⟨"AND", 0xC000#16, 0xF000#16⟩, by simp [opcodeTable], rfl, joinFields_and_primary _ _ _ _⟩

theorem Sys2Proof.Laws.EncodedInItsRow.or (r0 r1 r2 : RegIx) :
    Sys2Proof.Laws.EncodedInItsRow.Statement (.or r0 r1 r2) :=
  fun _ => ⟨⟨"OR", 0xD000#16, 0xF000#16⟩, by simp [opcodeTable], rfl, joinFields_and_primary _ _ _ _⟩

theorem Sys2Proof.Laws.EncodedInItsRow.xor (r0 r1 r2 : RegIx) :
    Sys2Proof.Laws.EncodedInItsRow.Statement (.xor r0 r1 r2) :=
  fun _ => ⟨⟨"XOR", 0xE000#16, 0xF000#16⟩, by simp [opcodeTable], rfl, joinFields_and_primary _ _ _ _⟩

theorem Sys2Proof.Laws.EncodedInItsRow.unmappedExt7 (g : BitVec 8) :
    Sys2Proof.Laws.EncodedInItsRow.Statement (.unmappedExt7 g) :=
  fun _ => ⟨⟨"UNMAPPED_EXT_7", 0x0700#16, 0xFF00#16⟩, by simp [opcodeTable], rfl, joinFields_and_extended _ _ _ _⟩

theorem Sys2Proof.Laws.EncodedInItsRow.unmappedExt8F (a : BitVec 4) (g : BitVec 8) :
    Sys2Proof.Laws.EncodedInItsRow.Statement (.unmappedExt8F a g) := by
  intro h
  exact ⟨⟨"UNMAPPED_EXT_8_F", 0x0800#16, 0xF800#16⟩, by simp [opcodeTable], rfl,
    joinFields_and_upperHalf _ _ _ (by simpa [Instr.wf] using h)⟩

theorem Sys2Proof.Laws.EncodedInItsRow.unmappedF (g : BitVec 12) :
    Sys2Proof.Laws.EncodedInItsRow.Statement (.unmappedF g) :=
  fun _ => ⟨⟨"UNMAPPED_F", 0xF000#16, 0xF000#16⟩, by simp [opcodeTable], rfl, joinFields_and_primary _ _ _ _⟩
end

