-- ==== Sys2Proof/Laws/Scheduler.lean ====
section
/-! SUPPORT. What a step can do, said once: one inversion lemma for the instruction step, one for the cycle, one for the
whole step. -/

namespace Sys2Proof.Machine

open Host (Outcome)

/-! ### The agents' steps field by field -/

@[simp] theorem timerStep_eq (s : State) : timerStep s = { s with tickPending := true } := rfl

@[simp] theorem serviceTick_eq (s : State) :
    serviceTick s = { s with tickPending := false, displayRefreshes := s.displayRefreshes + 1 } := rfl

/-- R128, R133: everything the worker's step can be. -/
theorem workerStep_cases (s : State) :
    workerStep s = s ∨
    (s.kbdStopped = false ∧ ∃ rest, s.keyIn = .eof :: rest ∧
      workerStep s = { s with keyIn := rest, kbdStopped := true }) ∨
    (s.kbdStopped = false ∧ queueHasRoom s.keyq.length = true ∧ ∃ b rest, s.keyIn = .byte b :: rest ∧
      workerStep s = { s with keyIn := rest, keyq := s.keyq ++ [b], kbdStopped := b == Config.quitCode }) := by
  unfold workerStep
  split
  · exact .inl rfl
  · rename_i hs
    have hs' : s.kbdStopped = false := by simpa using hs
    split
    · exact .inl rfl
    · exact .inr (.inl ⟨hs', _, ‹_›, rfl⟩)
    · split
      · exact .inr (.inr ⟨hs', ‹_›, _, _, ‹_›, rfl⟩)
      · exact .inl rfl

/-- R130, R131: the two things consuming a key can be. -/
theorem consumeKey_cases (k : Byte) (rest : List Byte) (s : State) :
    (k = Config.quitCode ∧ consumeKey k rest s = State.raise { s with keyq := rest } .quit) ∨
    (k ≠ Config.quitCode ∧ consumeKey k rest s = { s with keyq := rest }) := by
  unfold consumeKey
  split
  · exact .inl ⟨‹_›, rfl⟩
  · exact .inr ⟨‹_›, rfl⟩

/-! ### The instruction step -/

/-- R19, R22: the increment, unless the run ended. -/
theorem afterExecute_next (t : State) :
    (t.run = .running ∧ afterExecute (.next t) = .next t.advancePc) ∨
    (t.run = .terminated ∧ afterExecute (.next t) = .next t) := by
  cases h : t.run with
  | running => exact .inl ⟨rfl, by simp [afterExecute, h]⟩
  | terminated => exact .inr ⟨rfl, by simp [afterExecute, h]⟩

/-- An instruction leaves the run state of a running machine, or raises. -/
theorem exec_run {i : Instr} {s t : State} (h : exec i s = .next t) :
    t.run = s.run ∨ ∃ x, Raises i s x ∧ t = s.raise x := by
  rcases exec_cases h with ⟨r, v, _, rfl⟩ | ⟨rs, ro, _, rfl⟩ | rfl | ⟨_, _, _, _, _, _, _, rfl⟩ | h
  · exact .inl rfl
  · exact .inl rfl
  · exact .inl rfl
  · exact .inl rfl
  · exact .inr h

/-- R22: everything an instruction step can be, from a running state. -/
theorem instructionStep_cases {s t : State} (hr : s.run = .running) (h : instructionStep s = .next t) :
    (codeRead s.code s.pc = none ∧ t = s.raise .fetchOutOfRange) ∨
    (∃ w u, codeRead s.code s.pc = some w ∧ exec (decode w) s = .next u ∧
      ((u.run = .running ∧ t = u.advancePc) ∨ (∃ x, Raises (decode w) s x ∧ u = s.raise x ∧ t = u))) := by
  unfold instructionStep at h
  split at h
  · exact .inl ⟨‹_›, (Outcome.next.inj h).symm⟩
  · rename_i w hw
    obtain ⟨u, hu⟩ := exec_answers (decode w) s
    rw [hu] at h
    refine .inr ⟨w, u, hw, hu, ?_⟩
    rcases afterExecute_next u with ⟨hrun, e⟩ | ⟨hrun, e⟩
    · exact .inl ⟨hrun, (Outcome.next.inj (e.symm.trans h)).symm⟩
    · rcases exec_run hu with h' | ⟨x, hx, hux⟩
      · rw [hr, hrun] at h'; cases h'
      · exact .inr ⟨x, hx, hux, (Outcome.next.inj (e.symm.trans h)).symm⟩

/-- An instruction step always answers a next state. -/
theorem instructionStep_answers (s : State) : ∃ t, instructionStep s = .next t := by
  unfold instructionStep
  split
  · exact ⟨_, rfl⟩
  · rename_i w _
    obtain ⟨u, hu⟩ := exec_answers (decode w) s
    rw [hu]
    rcases afterExecute_next u with ⟨_, e⟩ | ⟨_, e⟩ <;> exact ⟨_, e⟩

/-! ### The cycle and the step -/

/-- R125: everything a scheduler cycle can be. -/
theorem coreCycle_cases {s t : State} (h : coreCycle s = .next t) :
    (∃ k rest, s.keyq = k :: rest ∧ t = consumeKey k rest s) ∨
    (s.keyq = [] ∧ s.tickPending = true ∧ t = serviceTick s) ∨
    (s.keyq = [] ∧ s.tickPending = false ∧ instructionStep s = .next t) := by
  unfold coreCycle at h
  split at h
  · exact .inl ⟨_, _, ‹_›, (Outcome.next.inj h).symm⟩
  · split at h
    · exact .inr (.inl ⟨‹_›, ‹_›, (Outcome.next.inj h).symm⟩)
    · rename_i h0 h1
      exact .inr (.inr ⟨h0, by simpa using h1, h⟩)

/-- R11, R149: everything a step can be. -/
theorem step_cases {s t : State} (h : step s = .next t) :
    (s.run = .terminated ∧ t = s) ∨
    (s.run = .running ∧ s.nextAgent = .worker ∧ t = workerStep s.takeTurn) ∨
    (s.run = .running ∧ s.nextAgent = .timer ∧ t = timerStep s.takeTurn) ∨
    (s.run = .running ∧ s.nextAgent = .core ∧ coreCycle s.takeTurn = .next t) := by
  unfold step at h
  split at h
  · rename_i hr
    unfold agentStep at h
    split at h
    · exact .inr (.inr (.inr ⟨hr, ‹_›, h⟩))
    · exact .inr (.inl ⟨hr, ‹_›, (Outcome.next.inj h).symm⟩)
    · exact .inr (.inr (.inl ⟨hr, ‹_›, (Outcome.next.inj h).symm⟩))
  · rename_i hr
    unfold afterEnd at h
    split at h
    · exact .inl ⟨hr, (Outcome.next.inj h).symm⟩
    · simp at h

/-- A step of the core while the run goes on is a scheduler cycle. -/
theorem step_of_coresTurn {s : State} (hr : s.run = .running) (ha : s.nextAgent = .core) :
    step s = coreCycle s.takeTurn := by
  simp [step, hr, ha, agentStep]

/-- A cycle with no key and no tick waiting is an instruction step (R127). -/
theorem coreCycle_of_quiet {s : State} (hk : s.keyq = []) (ht : s.tickPending = false) :
    coreCycle s = instructionStep s := by
  simp [coreCycle, hk, ht]

/-- A step of the worker. -/
theorem step_of_workersTurn {s : State} (hr : s.run = .running) (ha : s.nextAgent = .worker) :
    step s = .next (workerStep s.takeTurn) := by
  simp [step, hr, ha, agentStep]

/-- A step of the timer. -/
theorem step_of_timersTurn {s : State} (hr : s.run = .running) (ha : s.nextAgent = .timer) :
    step s = .next (timerStep s.takeTurn) := by
  simp [step, hr, ha, agentStep]

/-- The core's step with nothing waiting and a word to fetch: execute what it decodes to, then the increment (R22). -/
theorem step_of_fetch {s : State} {w : Word} (hr : s.run = .running) (ha : s.nextAgent = .core)
    (hk : s.keyq = []) (ht : s.tickPending = false) (hw : codeRead s.code s.pc = some w) :
    step s = afterExecute (exec (decode w) s.takeTurn) := by
  have hw' : codeRead s.takeTurn.code s.takeTurn.pc = some w := hw
  rw [step_of_coresTurn hr ha, coreCycle_of_quiet (s := s.takeTurn) hk ht]
  simp only [instructionStep, hw']

/-- The core's step with a key waiting (R125). -/
theorem step_of_key {s : State} {k : Byte} {rest : List Byte} (hr : s.run = .running)
    (ha : s.nextAgent = .core) (hk : s.keyq = k :: rest) : step s = .next (consumeKey k rest s.takeTurn) := by
  have hk' : s.takeTurn.keyq = k :: rest := hk
  rw [step_of_coresTurn hr ha]
  simp only [coreCycle, hk']

/-! ### Placing a word for the next fetch -/

/-- A word placed at an index is what is read there. -/
theorem placeWord_read (code : List Word) (k : Nat) (w : Word) : (placeWord code k w)[k]? = some w := by
  have hlen : (code.take k ++ List.replicate (k - code.length) 0#16).length = k := by
    simp; omega
  unfold placeWord
  rw [List.getElem?_append_right (by omega), hlen]
  simp

/-- `withFetchWord` makes the next step the execution of the word it placed (log 3). -/
theorem step_withFetchWord (s : State) (nbits w : Nat) :
    step (s.withFetchWord nbits w) =
      afterExecute (exec (decode (BitVec.ofNat 16 (w % 2 ^ nbits))) (s.withFetchWord nbits w)) := by
  have hc : codeRead (s.withFetchWord nbits w).code (s.withFetchWord nbits w).pc =
      some (BitVec.ofNat 16 (w % 2 ^ nbits)) := placeWord_read _ _ _
  have ht : (s.withFetchWord nbits w).takeTurn = s.withFetchWord nbits w := rfl
  rw [step_of_coresTurn rfl rfl, ht, coreCycle_of_quiet rfl rfl]
  simp only [instructionStep, hc]

end Sys2Proof.Machine
end

