-- ==== Sys2Proof/Tests/Slice0.lean ====
section
/-! SUPPORT. Tests of the model, each one step or one word. Expected values are those of spec/95_test_vectors.md (the
row is named in the comment), whose rows are written by hand from the rules; then a witness for every statement that has
hypotheses. -/

namespace Sys2Proof.Tests

open Sys2Proof Sys2Proof.Machine Host

/-! ### Well-formedness (R71, R72, R110) -/

/-- The row UNMAPPED_EXT_8_F does not stand for sub-opcode 7 (R110). -/
theorem test_wf_refuses_sub_opcode_7 : Instr.wf (.unmappedExt8F 7#4 0#8) = false := by decide
/-- Nor for a mapped sub-opcode (R79). -/
theorem test_wf_refuses_mapped_sub_opcode : Instr.wf (.unmappedExt8F 1#4 0x12#8) = false := by decide
theorem test_wf_accepts_sub_opcode_8 : Instr.wf (.unmappedExt8F 8#4 0#8) = true := by decide
/-- Words with ignored bits that are not 0 are instructions, but not in canonical form (R71). -/
theorem test_canonical : Instr.wf (.halt 0xFF#8) = true ∧ Instr.canonical (.halt 0xFF#8) = false ∧
    Instr.canonical (.lsl 1 15#4) = false ∧ Instr.canonical (.unmappedF 0xFFF#12) = false ∧
    Instr.canonical (.nop 0#8) = true := by decide

/-! ### Decoding, from words written out bit by bit (R69, R72, V-DEC) -/

theorem test_decode_halt : decode 0b0000000011111111#16 = .halt 0xFF#8 := by decide
theorem test_decode_cpy : decode 0b0000000100010010#16 = .cpy 1 2 := by decide
theorem test_decode_not : decode 0b0000001001010100#16 = .not 5 4 := by decide
theorem test_decode_lsl : decode 0b0000001100011111#16 = .lsl 1 15#4 := by decide
theorem test_decode_lsr : decode 0b0000010000010000#16 = .lsr 1 0#4 := by decide
theorem test_decode_jmp : decode 0b0000010100010010#16 = .jmp 1 2 := by decide
theorem test_decode_nop : decode 0b0000011010101011#16 = .nop 0xAB#8 := by decide
theorem test_decode_add : decode 0b0001001100010010#16 = .add 3 1 2 := by decide
theorem test_decode_sub : decode 0b0010000000010010#16 = .sub 0 1 2 := by decide
theorem test_decode_addc : decode 0b0011110001111111#16 = .addc 12 0x7F#8 := by decide
theorem test_decode_subc : decode 0b0100000100000001#16 = .subc 1 1#8 := by decide
theorem test_decode_cmp : decode 0b0101000000010100#16 = .cmp 0 1 4 := by decide
theorem test_decode_jlt : decode 0b0110000001010110#16 = .jlt 0 5 6 := by decide
theorem test_decode_jgt : decode 0b0111000001010110#16 = .jgt 0 5 6 := by decide
theorem test_decode_jeq : decode 0b1000000001010110#16 = .jeq 0 5 6 := by decide
theorem test_decode_ldr : decode 0b1001100001010111#16 = .ldr 8 5 7 := by decide
theorem test_decode_str : decode 0b1010001001010111#16 = .str 2 5 7 := by decide
theorem test_decode_lrc : decode 0b1011111110100101#16 = .lrc 15 0xA5#8 := by decide
theorem test_decode_and : decode 0b1100011000110101#16 = .and 6 3 5 := by decide
theorem test_decode_or : decode 0b1101011100110100#16 = .or 7 3 4 := by decide
theorem test_decode_xor : decode 0b1110100001110101#16 = .xor 8 7 5 := by decide
theorem test_decode_unmapped_7 : decode 0b0000011100000000#16 = .unmappedExt7 0#8 := by decide
theorem test_decode_unmapped_8 : decode 0b0000100000000000#16 = .unmappedExt8F 8#4 0#8 := by decide
theorem test_decode_unmapped_15 : decode 0b0000111111111111#16 = .unmappedExt8F 15#4 0xFF#8 := by decide
theorem test_decode_unmapped_f : decode 0b1111101000010010#16 = .unmappedF 0xA12#12 := by decide
theorem test_encode : encode (.ldr 8 5 7) = 0x9857#16 ∧ encode (.lrc 7 0x10#8) = 0xB710#16 ∧
    encode (.lsl 1 15#4) = 0x031F#16 ∧ encode (.unmappedF 0xA12#12) = 0xFA12#16 := by decide
theorem test_decode_table_word : decodeTableWord 16 0xA257 = some (.str 2 5 7) := by decide

/-- R75 and R77. -/
theorem test_assembly : assembly (decode 0xA257#16) = "STR r2, r5, r7" ∧ assembly (decode 0xB710#16) = "LRC r7, 0x10" ∧
    assembly (decode 0x0310#16) = "LSL r1" ∧ assembly (decode 0x031F#16) = ".word 0x031F" ∧
    assembly (decode 0x0000#16) = "HALT" ∧ assembly (decode 0xFFFF#16) = ".word 0xFFFF" := by decide

/-! ### One step of each instruction -/

/-- The reset state with some registers given. -/
def regs (l : List (RegIx × Word)) : State := l.foldl (fun s p => s.writeReg p.1 p.2) State.reset

/-- One step that fetches the word `w`, and what is seen of the state after it. -/
def after {α : Type} (w : Nat) (s : State) (see : State → α) : Option α :=
  match step (s.withFetchWord 16 w) with
  | .next t => some (see t)
  | .fault _ => none
  | .refused _ => none

/-- X2 -/
theorem test_halt : after 0x00FF (regs [(1, 0xFFFF#16)])
    (fun t => ((t.run, t.cause, t.exitStatus), t.diag, t.pc, t.readReg 1)) =
    some ((.terminated, .halt, some 0), [], 0#16, 0xFFFF#16) := by decide
/-- X3 -/
theorem test_cpy : after 0x0112 (regs [(1, 0x1111#16), (2, 0xBEEF#16)])
    (fun t => (t.readReg 1, t.readReg 2, t.pc)) = some (0xBEEF#16, 0xBEEF#16, 1#16) := by decide
/-- X7 -/
theorem test_not : after 0x0221 (regs [(1, 0xA5A5#16)]) (fun t => t.readReg 2) = some 0x5A5A#16 := by decide
/-- X9 -/
theorem test_lsl : after 0x0310 (regs [(3, 0x0081#16), (1, 4#16)]) (fun t => t.readReg 3) =
    some 0x0810#16 := by decide
/-- X12 -/
theorem test_lsl_16 : after 0x0310 (regs [(3, 0xFFFF#16), (1, 16#16)]) (fun t => t.readReg 3) =
    some 0#16 := by decide
/-- X18 -/
theorem test_lsr_zero_fill : after 0x0410 (regs [(4, 0xFFFF#16), (1, 1#16)]) (fun t => t.readReg 4) =
    some 0x7FFF#16 := by decide
/-- X22 -/
theorem test_lsr_keeps_r3 : after 0x0410 (regs [(3, 0xFF#16), (4, 0xFF#16), (1, 8#16)])
    (fun t => (t.readReg 4, t.readReg 3)) = some (0#16, 0xFF#16) := by decide
/-- X23 -/
theorem test_jmp : after 0x0512 ((regs [(1, 1#16), (2, 2#16)]).setPc 7#16) (fun t => t.pc) =
    some 258#16 := by decide
/-- J9 -/
theorem test_jmp_wraps : after 0x0512 (regs [(1, 0x0102#16), (2, 0x0304#16)]) (fun t => t.pc) =
    some 0x0504#16 := by decide
/-- X25 -/
theorem test_nop : after 0x06AB (regs [(10, 1#16), (11, 2#16)])
    (fun t => (t.regs, t.mem, t.pc)) = some ((regs [(10, 1#16), (11, 2#16)]).regs, [], 1#16) := by decide
/-- A2 -/
theorem test_add_wraps : after 0x1312 (regs [(1, 0xFFFF#16), (2, 1#16), (3, 5#16)]) (fun t => t.readReg 3) =
    some 0#16 := by decide
/-- A6 -/
theorem test_add_same : after 0x1111 (regs [(1, 0x4001#16)]) (fun t => t.readReg 1) = some 0x8002#16 := by decide
/-- A7 -/
theorem test_sub : after 0x2312 (regs [(1, 5#16), (2, 7#16)]) (fun t => t.readReg 3) = some 0xFFFE#16 := by decide
/-- A14 -/
theorem test_addc : after 0x31FF (regs [(1, 0xFF01#16)]) (fun t => t.readReg 1) = some 0#16 := by decide
/-- A16: the immediate is not sign-extended. -/
theorem test_addc_zext : after 0x31FF (regs []) (fun t => t.readReg 1) = some 0xFF#16 := by decide
/-- A22 -/
theorem test_subc : after 0x41FF (regs []) (fun t => t.readReg 1) = some 0xFF01#16 := by decide
/-- C3: a signed reading would say greater. -/
theorem test_cmp_less : after 0x5012 (regs [(1, 0#16), (2, 0xFFFF#16), (0, 7#16)]) (fun t => t.readReg 0) =
    some 0#16 := by decide
/-- C9 -/
theorem test_cmp_equal_in_place : after 0x5112 (regs [(1, 9#16), (2, 9#16)]) (fun t => t.readReg 1) =
    some 1#16 := by decide
/-- The state of the B rows: pc 5, segment 0, offset 9, the flag in r0. -/
def branchState (flag : Word) : State := (regs [(0, flag), (6, 9#16)]).setPc 5#16
/-- B1, B2 -/
theorem test_jlt : after 0x6056 (branchState 0#16) (fun t => t.pc) = some 9#16 ∧
    after 0x6056 (branchState 1#16) (fun t => t.pc) = some 6#16 := by decide
/-- B3, B6 -/
theorem test_jgt : after 0x7056 (branchState 2#16) (fun t => t.pc) = some 9#16 ∧
    after 0x7056 (branchState 0x0100#16) (fun t => t.pc) = some 6#16 := by decide
/-- B2, B5 -/
theorem test_jeq : after 0x8056 (branchState 1#16) (fun t => t.pc) = some 9#16 ∧
    after 0x8056 (branchState 0xFFFF#16) (fun t => t.pc) = some 6#16 := by decide
/-- M13: the segment value is truncated on a load. -/
theorem test_ldr : after 0x9312 ((regs [(1, 0x0105#16), (2, 0x34#16)]).writeCell ⟨5#8, 0x34#8⟩ 0x77#16)
    (fun t => t.readReg 3) = some 0x77#16 := by decide
/-- M13 under the policy `fault`. -/
theorem test_ldr_index_fault : after 0x9312 { regs [(1, 0x0105#16), (2, 0x34#16)] with indexPolicy := .fault }
    (fun t => (t.run, t.cause, t.readReg 3, t.pc)) = some (.terminated, .indexOutOfRange, 0#16, 0#16) := by decide
/-- M7 -/
theorem test_str : after 0xA012 (regs [(0, 0xAAAA#16), (1, 0x7F#16), (2, 0xFF#16)])
    (fun t => (t.mem, t.pc)) = some ([(32767, 0xAAAA#16)], 1#16) := by decide
/-- M10: the check is on the full value. -/
theorem test_str_illegal : after 0xA012 (regs [(1, 0x0100#16)])
    (fun t => ((t.cause, t.exitStatus), t.diag, t.mem, t.pc)) =
    some ((.illegalWrite, some 1), [.illegalWrite], [], 0#16) := by decide
/-- M1 -/
theorem test_lrc : after 0xB710 (regs [(7, 0xFFFF#16)]) (fun t => t.readReg 7) = some 0x10#16 := by decide
/-- W1 -/
theorem test_and : after 0xC635 (regs [(3, 0x0810#16), (5, 0xFFF0#16)]) (fun t => t.readReg 6) =
    some 0x0810#16 := by decide
/-- W2 -/
theorem test_or : after 0xD734 (regs [(3, 0x0810#16), (4, 0x000F#16)]) (fun t => t.readReg 7) =
    some 0x081F#16 := by decide
/-- W3 -/
theorem test_xor : after 0xE875 (regs [(7, 0x081F#16), (5, 0xFFF0#16)]) (fun t => t.readReg 8) =
    some 0xF7EF#16 := by decide
/-- U1, U4, U6 -/
theorem test_unmapped : ∀ w ∈ [0x0700, 0x0FFF, 0xFA12],
    after w (regs [(1, 0x1111#16), (10, 0x111A#16)]) (fun t => (t.regs, t.mem, t.pc, t.run)) =
    some ((regs [(1, 0x1111#16), (10, 0x111A#16)]).regs, [], 1#16, .running) := by decide

/-! ### Scheduler, construction, loader -/

/-- E1: an empty code, from reset; the status is free. -/
theorem test_fetch_out_of_range : step State.reset =
    .next { State.reset with run := .terminated, cause := .fetchOutOfRange,
                             exitStatus := some Config.fetchFaultStatus } := rfl
/-- E6: the quit code comes before the HALT. -/
theorem test_quit_before_halt : (match step { (regs []).withFetchWord 16 0x0000 with keyq := [113#8, 5#8] } with
    | .next t => some (t.cause, t.exitStatus, t.keyq)
    | .fault _ => none
    | .refused _ => none) = some (.quit, some 0, [5#8]) := by decide
/-- 81 is not the quit code (R130). -/
theorem test_other_key : (match step { State.reset with keyq := [81#8], tickPending := true } with
    | .next t => some (t.run, t.keyq, t.tickPending)
    | .fault _ => none
    | .refused _ => none) = some (.running, [], true) := by decide
/-- R134, R135: a turn of the timer, then the service. -/
theorem test_tick : (match Sys2Proof.core.run 2 { State.reset with schedule := [.timer] } with
    | .next t => some (t.tickPending, t.displayRefreshes, t.pc)
    | .fault _ => none
    | .refused _ => none) = some (false, 1, 0#16) := by decide
/-- R128: the worker forwards the quit code and stops. -/
theorem test_worker : (match step (State.reset.withEnvironment [.byte 113#8, .byte 1#8] [.worker]) with
    | .next t => some (t.keyq, t.kbdStopped, t.keyIn)
    | .fault _ => none
    | .refused _ => none) = some ([113#8], true, [.byte 1#8]) := by decide
/-- M14: the ROM image is placed from M[128][0] on, and loads from it are legal. -/
theorem test_construct_rom : (match construct .truncate [0x9312#16] [0x1234#16, 0xBEEF#16, 0x0042#16] with
    | .next s => (match step ((s.writeReg 1 0x80#16).writeReg 2 1#16) with
      | .next t => some (t.readReg 3, t.mem)
      | .fault _ => none
      | .refused _ => none)
    | .fault _ => none
    | .refused _ => none) =
    some (0xBEEF#16, [(32768, 0x1234#16), (32769, 0xBEEF#16), (32770, 0x0042#16)]) := by decide
/-- The placement vectors after V-MEM. -/
theorem test_rom_cells : romCell 0 = ⟨128#8, 0#8⟩ ∧ romCell 255 = ⟨128#8, 255#8⟩ ∧ romCell 256 = ⟨129#8, 0#8⟩ ∧
    romCell 32767 = ⟨255#8, 255#8⟩ := by decide
/-- L1 -/
theorem test_load_file : loadFile [0x03#8, 0x00#8, 0x01#8, 0x12#8, 0x13#8, 0x12#8, 0x00#8, 0x00#8] =
    .words [0x0112#16, 0x1312#16, 0x0000#16] := by decide
/-- L5 -/
theorem test_load_error : loadFile [0x02#8, 0x00#8, 0x05#8, 0x00#8] = .loadError := by decide

/-! ### Witnesses: for every statement with hypotheses, operands that meet them all, clause by clause -/

/-- Ready to run the word `w`, with some registers given. -/
def at_ (w : Nat) (l : List (RegIx × Word)) : State := (regs l).withFetchWord 16 w

theorem witness_ImmediateIsTheZeroExtendedLowByte :
    (splitWord 0x3C7F#16).opcode.toNat = 3 ∧ (splitWord 0x41FF#16).opcode.toNat = 4 ∧
    (splitWord 0xB100#16).opcode.toNat = 11 := by decide

theorem witness_DecodeInvertsEncode :
    Instr.wf (.unmappedExt8F 8#4 0#8) = true ∧ Instr.wf (.unmappedExt8F 15#4 0xFF#8) = true ∧
    Instr.wf (.add 15 15 15) = true := by decide

theorem witness_EveryWordSelectsExactlyItsRow :
    ⟨"UNMAPPED_EXT_8_F", 0x0800#16, 0xF800#16⟩ ∈ opcodeTable ∧ 0x0FFF#16 &&& 0xF800#16 = 0x0800#16 ∧
    (decode 0x0FFF#16).mnemonic = "UNMAPPED_EXT_8_F" := by decide

theorem witness_IgnoredBitsChangeNothing :
    ((decode 0x0000#16).mnemonic = (decode 0x00FF#16).mnemonic ∧
      (decode 0x0000#16).mnemonic ∈ ["HALT", "NOP", "UNMAPPED_EXT_7", "UNMAPPED_EXT_8_F", "UNMAPPED_F"]) ∧
    ((decode 0x0310#16).mnemonic = (decode 0x031F#16).mnemonic ∧
      (decode 0x0310#16).mnemonic ∈ ["LSL", "LSR"] ∧ 0x0310#16 &&& 0xFFF0#16 = 0x031F#16 &&& 0xFFF0#16) := by
  decide

theorem witness_LslShiftsRegisterThree : 16 ≤ ((regs [(1, 16#16)]).readReg 1).toNat := by decide

theorem witness_LsrShiftsRegisterFour : 16 ≤ ((regs [(1, 0xFFFF#16)]).readReg 1).toNat := by decide

theorem witness_NopOnlyAdvancesThePc :
    (at_ 0x06AB []).ready ∧ (at_ 0x06AB []).fetches (Claims.wordN 6 0xAB#8) := by decide

theorem witness_CmpLeavesTheThreeValuedFlag :
    ((regs [(2, 1#16)]).readReg 1).toNat < ((regs [(2, 1#16)]).readReg 2).toNat ∧
    ((regs []).readReg 1).toNat = ((regs []).readReg 2).toNat ∧
    ((regs [(1, 0xFFFF#16)]).readReg 1).toNat > ((regs [(1, 0xFFFF#16)]).readReg 2).toNat := by decide

theorem witness_ConditionalJumpsTestTheWholeWord :
    ((regs []).readReg 0).toNat = 0 ∧ ((regs [(0, 2#16)]).readReg 0).toNat = 2 ∧
    ((regs [(0, 1#16)]).readReg 0).toNat = 1 ∧ ((regs [(0, 0x0100#16)]).readReg 0).toNat ≠ 0 := by decide

theorem witness_CmpSelectsOneConditionalJump :
    (∃ t, exec (.cmp 0 1 2) (regs [(1, 5#16), (2, 7#16)]) = .next t) ∧
    (∃ t, exec (.cmp 0 1 2) (regs [(1, 7#16), (2, 7#16)]) = .next t) ∧
    (∃ t, exec (.cmp 0 1 2) (regs [(1, 0xFFFF#16), (2, 7#16)]) = .next t) ∧
    3 ≤ ((regs [(0, 3#16)]).readReg 0).toNat := ⟨⟨_, rfl⟩, ⟨_, rfl⟩, ⟨_, rfl⟩, by decide⟩

theorem witness_LdrLoadsTheTruncatedCell : (regs [(1, 0x0105#16)]).indexPolicy = .truncate := rfl

theorem witness_StrStoresOneWritableCell :
    MemoryCanonical (regs [(1, 127#16)]) ∧ (regs [(1, 127#16)]).indexPolicy = .truncate ∧
    ((regs [(1, 127#16)]).readReg 1).toNat < 128 := by decide

/-- The policy `fault`, with the two index registers given. -/
def faulting (seg off : Word) : State := { regs [(1, seg), (2, off)] with indexPolicy := .fault }

theorem witness_IndexFaultPolicyEndsTheRun :
    (faulting 256#16 0#16).indexPolicy = .fault ∧ 256 ≤ ((faulting 256#16 0#16).readReg 1).toNat ∧
    256 ≤ ((faulting 255#16 256#16).readReg 2).toNat ∧
    (((faulting 127#16 256#16).readReg 1).toNat < 128 ∧ 256 ≤ ((faulting 127#16 256#16).readReg 2).toNat) ∧
    (((faulting 255#16 255#16).readReg 1).toNat < 256 ∧ ((faulting 255#16 255#16).readReg 2).toNat < 256) ∧
    (MemoryCanonical (faulting 127#16 255#16) ∧ ((faulting 127#16 255#16).readReg 1).toNat < 128 ∧
      ((faulting 127#16 255#16).readReg 2).toNat < 256) := by decide

theorem witness_IllegalWriteExactlyOnReadOnlySegments :
    128 ≤ ((regs [(1, 128#16)]).readReg 1).toNat ∧ ∃ t, exec (.str 0 1 2) (regs [(1, 128#16)]) = .next t ∧
      (regs [(1, 128#16)]).cause ≠ .illegalWrite ∧ t.cause = .illegalWrite :=
  ⟨by decide, _, rfl, by decide, rfl⟩

/-- The state of the round trip, before its store. -/
def beforeStore : State := regs [(0, 0xAAAA#16), (1, 127#16), (2, 255#16), (4, 0x017F#16)]

/-- The state of the round trip, after its store. -/
def afterStore : State := beforeStore.writeCell ⟨127#8, 255#8⟩ 0xAAAA#16

theorem witness_LoadAfterStoreGivesTheValue :
    MemoryCanonical beforeStore ∧ beforeStore.indexPolicy = .truncate ∧ afterStore.indexPolicy = .truncate ∧
    (beforeStore.readReg 1).toNat < 128 ∧ exec (.str 0 1 2) beforeStore = .next afterStore ∧
    afterStore.readCell (Claims.cellOf (beforeStore.readReg 1) (beforeStore.readReg 2)) =
      afterStore.readCell (Claims.cellOf (beforeStore.readReg 1) (beforeStore.readReg 2)) ∧
    (afterStore.readReg 4).toNat % 256 = (beforeStore.readReg 1).toNat % 256 ∧
    (afterStore.readReg 2).toNat % 256 = (beforeStore.readReg 2).toNat % 256 :=
  ⟨by decide, rfl, rfl, by decide, rfl, rfl, by decide, by decide⟩

theorem witness_UnmappedWordsAreExactlyTheseNoOps :
    (Claims.unmapped 0x0700#16 ∧ (at_ 0x0700 []).ready ∧ (at_ 0x0700 []).fetches 0x0700#16) ∧
    (Claims.unmapped 0x0FFF#16 ∧ (at_ 0x0FFF []).ready ∧ (at_ 0x0FFF []).fetches 0x0FFF#16) ∧
    (Claims.unmapped 0xF000#16 ∧ (at_ 0xF000 []).ready ∧ (at_ 0xF000 []).fetches 0xF000#16) := by
  unfold Claims.unmapped; decide

theorem witness_StepRunsTheDecodedInstruction :
    ((at_ 0x0112 []).ready ∧ (at_ 0x0112 []).fetches 0x0112#16 ∧
      ∃ u, exec (decode 0x0112#16) (at_ 0x0112 []).takeTurn = .next u ∧ u.run = .running) ∧
    ((at_ 0x0000 []).ready ∧ (at_ 0x0000 []).fetches 0x0000#16 ∧
      ∃ u, exec (decode 0x0000#16) (at_ 0x0000 []).takeTurn = .next u ∧ u.run = .terminated) :=
  ⟨⟨by decide, rfl, _, rfl, rfl⟩, by decide, rfl, _, rfl, rfl⟩

theorem witness_FetchOutsideTheCodeEndsTheRun :
    State.reset.ready ∧ State.reset.code.length ≤ State.reset.pc.toNat := by decide

theorem witness_TakenJumpLandsOnItsTarget :
    ((at_ 0x0512 []).ready ∧ (at_ 0x0512 []).fetches 0x0512#16 ∧
      (decode 0x0512#16).jumpsThrough = some (1, 2) ∧ Claims.takesJump (decode 0x0512#16) (at_ 0x0512 [])) ∧
    ((at_ 0x8111 [(1, 1#16)]).ready ∧ (at_ 0x8111 [(1, 1#16)]).fetches 0x8111#16 ∧
      (decode 0x8111#16).jumpsThrough = some (1, 1) ∧
      Claims.takesJump (decode 0x8111#16) (at_ 0x8111 [(1, 1#16)])) :=
  ⟨⟨by decide, rfl, rfl, trivial⟩, by decide, rfl, rfl, rfl⟩

theorem witness_InstructionStepsAdvanceJumpOrEnd :
    ((at_ 0x0000 []).ready ∧ (at_ 0x0000 []).fetches 0x0000#16 ∧
      ∃ t, step (at_ 0x0000 []) = .next t ∧ t.run = .terminated) ∧
    ((at_ 0x0600 []).ready ∧ (at_ 0x0600 []).fetches 0x0600#16 ∧
      ∃ t, step (at_ 0x0600 []) = .next t ∧ t.run = .running) ∧
    ((at_ 0x6056 []).ready ∧ (at_ 0x6056 []).fetches 0x6056#16 ∧
      Claims.takesJump (decode 0x6056#16) (at_ 0x6056 []) ∧ ∃ t, step (at_ 0x6056 []) = .next t) :=
  ⟨⟨by decide, rfl, _, rfl, rfl⟩, ⟨by decide, rfl, _, rfl, rfl⟩, by decide, rfl, rfl, _, rfl⟩

theorem witness_OnlyTheNamedRegisterIsWritten :
    (∃ t, exec (.add 3 1 2) (regs []) = .next t) ∧ Instr.written (.add 3 1 2) ≠ some 4 :=
  ⟨⟨_, rfl⟩, by decide⟩

theorem witness_OnlyStrWritesAndOnlyItsCell :
    (∃ t, exec (.add 3 1 2) (regs []) = .next t) ∧ (∀ rv rs ro, Instr.add 3 1 2 ≠ .str rv rs ro) ∧
    (∃ t, exec (.str 0 1 2) (regs [(0, 9#16)]) = .next t) ∧
    cellAddress (regs [(0, 9#16)]).indexPolicy ((regs [(0, 9#16)]).readReg 1) ((regs [(0, 9#16)]).readReg 2) ≠
      some ⟨0#8, 1#8⟩ :=
  ⟨⟨_, rfl⟩, fun _ _ _ h => Instr.noConfusion h, ⟨_, rfl⟩, by decide⟩

/-- Two running states that agree on what a program sees and differ elsewhere: a goes on and an ending instruction. -/
theorem witness_InstructionsSeeOnlyTheProgramState :
    (regs []).run = .running ∧ ({ regs [] with keyq := [7#8], tickPending := true } : State).run = .running ∧
    SameProgramState (regs []) { regs [] with keyq := [7#8], tickPending := true } ∧
    ({ regs [] with keyq := [7#8], tickPending := true } : State).indexPolicy = (regs []).indexPolicy ∧
    (∃ t, exec (.add 3 1 2) (regs []) = .next t) ∧
    (∃ t, exec (.add 3 1 2) { regs [] with keyq := [7#8], tickPending := true } = .next t) ∧
    (∃ t, exec (.halt 0#8) (regs []) = .next t ∧ t.run = .terminated) :=
  ⟨rfl, rfl, ⟨rfl, rfl, rfl⟩, rfl, ⟨_, rfl⟩, ⟨_, rfl⟩, _, rfl, rfl⟩

theorem witness_RunningMachineNeverWaits : State.reset.run = .running ∧ State.reset.ready := by decide

/-- A state in which a key waits. -/
def withKey (k : Byte) : State := { State.reset with keyq := [k, 5#8], tickPending := true }

theorem witness_OnlyTheQuitCodeQuits :
    ((withKey 113#8).coresTurn ∧ (withKey 113#8).keyq = 113#8 :: [5#8] ∧ (113#8).toNat = 113) ∧
    ((withKey 112#8).coresTurn ∧ (withKey 112#8).keyq = 112#8 :: [5#8] ∧ (112#8).toNat ≠ 113) := by decide

theorem witness_OtherKeysOnlyLeaveTheQueue :
    (withKey 114#8).coresTurn ∧ (withKey 114#8).keyq = 114#8 :: [5#8] ∧ (114#8).toNat ≠ 113 := by decide

theorem witness_TickIsServicedInACycleOfItsOwn :
    ({ State.reset with tickPending := true } : State).coresTurn ∧
    ({ State.reset with tickPending := true } : State).keyq = [] ∧
    ({ State.reset with tickPending := true } : State).tickPending = true := by decide

/-- A state in which the worker moves next. -/
def workerTurn (keyIn : List KeyInput) (stopped : Bool) : State :=
  { State.reset.withEnvironment keyIn [.worker] with kbdStopped := stopped }

theorem witness_WorkerForwardsBytesAndStopsAfterQuit :
    ((workerTurn [.byte 113#8] false).run = .running ∧ (workerTurn [.byte 113#8] false).nextAgent = .worker ∧
      (workerTurn [.byte 113#8] false).kbdStopped = false ∧
      (workerTurn [.byte 113#8] false).keyIn = .byte 113#8 :: [] ∧
      queueHasRoom (workerTurn [.byte 113#8] false).keyq.length = true) ∧
    ((workerTurn [.byte 1#8] true).run = .running ∧ (workerTurn [.byte 1#8] true).nextAgent = .worker ∧
      (workerTurn [.byte 1#8] true).kbdStopped = true) := by decide

/-- The clause of the full queue has a witness for every bounded capacity; with an unbounded queue it never applies. -/
theorem witness_WorkerWaitsOrMeetsTheEndOfInput :
    ((workerTurn [] false).run = .running ∧ (workerTurn [] false).nextAgent = .worker ∧
      (workerTurn [] false).kbdStopped = false ∧ (workerTurn [] false).keyIn = []) ∧
    ((workerTurn [.eof] false).run = .running ∧ (workerTurn [.eof] false).nextAgent = .worker ∧
      (workerTurn [.eof] false).kbdStopped = false ∧ (workerTurn [.eof] false).keyIn = .eof :: []) ∧
    (∀ extra, Config.keyqDepth = .bounded extra →
      queueHasRoom (List.replicate (extra + 1) 5#8).length = false) := by
  refine ⟨by decide, by decide, fun extra h => ?_⟩
  simp [queueHasRoom, h]

theorem witness_TicksCoalesce :
    (State.reset.withEnvironment [] [.timer]).nextAgent = .timer ∧
    ((State.reset.withEnvironment [] [.timer, .timer, .core]).run = .running ∧
      (State.reset.withEnvironment [] [.timer, .timer, .core]).keyq = [] ∧
      (State.reset.withEnvironment [] [.timer, .timer, .core]).schedule = [.timer, .timer, .core] ++ []) := by
  decide

theorem witness_EachAgentWritesOnlyItsOwnState :
    (∃ t, step (workerTurn [.byte 113#8] false) = .next t) ∧
    (∃ t, step (State.reset.withEnvironment [] [.timer]) = .next t) ∧ ∃ t, step (withKey 5#8) = .next t :=
  ⟨⟨_, rfl⟩, ⟨_, rfl⟩, _, rfl⟩

theorem witness_TerminationIsFinal :
    (State.reset.raise .halt).cause = .halt ∧ (State.reset.raise .quit).cause = .quit ∧
    (State.reset.raise .illegalWrite).cause = .illegalWrite ∧
    (State.reset.raise .fetchOutOfRange).cause = .fetchOutOfRange ∧
    (State.reset.raise .indexOutOfRange).cause = .indexOutOfRange ∧
    (State.reset.raise .halt).run = .terminated ∧ step (State.reset.raise .halt) = .next (State.reset.raise .halt) :=
  ⟨rfl, rfl, rfl, rfl, rfl, rfl, rfl⟩

theorem witness_TerminationsArePrecise :
    (at_ 0xA012 [(1, 128#16)]).run = .running ∧
    ∃ t, step (at_ 0xA012 [(1, 128#16)]) = .next t ∧ t.run = .terminated := ⟨rfl, _, rfl, rfl⟩

/-- A state with something in memory, in the ROM region and in the queue, ready to store. -/
def busy : State :=
  { at_ 0xA012 [(0, 7#16), (1, 127#16)] with mem := [(0, 1#16), (32768, 5#16)], rom := [5#16], keyq := [],
                                             displayRefreshes := 2 }

theorem witness_steps : ∃ t, step busy = .next t ∧ t.mem = [(0, 1#16), (32512, 7#16), (32768, 5#16)] :=
  ⟨_, rfl, by decide⟩

theorem witness_RomIsNeverWritten : (∃ t, step busy = .next t) ∧ 128 ≤ (⟨128#8, 0#8⟩ : CellAddr).seg.toNat :=
  ⟨⟨_, rfl⟩, by decide⟩

theorem witness_MemoryStaysCanonical : MemoryCanonical busy ∧ ∃ t, step busy = .next t := ⟨by decide, _, rfl⟩

theorem witness_RunStateStaysConsistent :
    (RunStateConsistent (at_ 0xA012 [(1, 128#16)]) ∧ ∃ t, step (at_ 0xA012 [(1, 128#16)]) = .next t ∧
      t.cause = .illegalWrite ∧ t.diag ≠ [] ∧ t.exitStatus = some 1) ∧
    (RunStateConsistent (at_ 0x0000 []) ∧ ∃ t, step (at_ 0x0000 []) = .next t ∧ t.cause = .halt) ∧
    (RunStateConsistent (withKey 113#8) ∧ ∃ t, step (withKey 113#8) = .next t ∧ t.cause = .quit) :=
  ⟨⟨⟨rfl, rfl, rfl⟩, _, rfl, rfl, by decide, rfl⟩, ⟨⟨rfl, rfl, rfl⟩, _, rfl, rfl⟩, ⟨rfl, rfl, rfl⟩, _, rfl, rfl⟩

theorem witness_QuitCodeStaysLastInTheQueue :
    QuitCodeLast { withKey 113#8 with keyq := [113#8], kbdStopped := true } ∧
    QueueWithinCapacity { withKey 113#8 with keyq := [113#8], kbdStopped := true } ∧
    ∃ t, step { withKey 113#8 with keyq := [113#8], kbdStopped := true } = .next t := by
  refine ⟨⟨by decide, fun _ => rfl⟩, fun n h => ?_, _, rfl⟩
  have : n = 0 := by simpa using h.symm
  rw [this]; rfl

theorem witness_RomRegionHoldsTheImage : RomHoldsImage busy ∧ InputsFit busy ∧ ∃ t, step busy = .next t := by
  refine ⟨fun a ha => ?_, ⟨by decide, by decide⟩, _, rfl⟩
  have ha' : 128 ≤ a.seg.toNat := ha
  have hk : a.key = a.seg.toNat * 256 + a.off.toNat := rfl
  have hr : busy.readCell a = if 0 = a.key then 1#16 else if 32768 = a.key then 5#16 else 0#16 := rfl
  have hi : romWord busy.rom a = ([5#16][(a.seg.toNat - 128) * 256 + a.off.toNat]?).getD 0#16 := rfl
  rw [hr, hi, if_neg (by omega)]
  by_cases h : 32768 = a.key
  · rw [if_pos h, show (a.seg.toNat - 128) * 256 + a.off.toNat = 0 by omega]; rfl
  · rw [if_neg h, List.getElem?_eq_none (by simp only [List.length_singleton]; omega)]; rfl

theorem witness_CodeRomAndPolicyNeverChange : ∃ t, step busy = .next t := ⟨_, rfl⟩

theorem witness_RegistersAreZeroAfterConstruction :
    ∃ s, construct .fault [0x0600#16] [0x1234#16] = .next s := ⟨_, rfl⟩

theorem witness_ConstructionGivesTheResetState :
    65536 < (List.replicate 65537 0#16).length ∧
    ((List.replicate 65536 0#16).length ≤ 65536 ∧ 32768 < (List.replicate 32769 0#16).length) ∧
    ((List.replicate 65536 0#16).length ≤ 65536 ∧ (List.replicate 32768 0#16).length ≤ 32768) := by
  simp only [List.length_replicate]; decide

theorem witness_LoaderReadsTheFileFormat :
    ([0x05#8, 0x00#8].length = 2 * ((1#8).toNat + 256 * (0#8).toNat)) ∧
    ([0x05#8, 0x00#8].length < 2 * ((2#8).toNat + 256 * (0#8).toNat)) ∧
    ([0x0500#16].length ≤ 65535) := by decide

end Sys2Proof.Tests
end

section
/-! PROOFS. No agent writes the arguments of construction: the program, the ROM image and the index policy
(`00_scope.md` sections 4 and 6, `20_memory.md` sections 2 and 8). -/

namespace Sys2Proof.Machine

/-- Two states of one constructed machine: they agree on the code, the ROM image and the index policy. -/
structure SameConstruction (s t : State) : Prop where
  code : t.code = s.code
  rom : t.rom = s.rom
  indexPolicy : t.indexPolicy = s.indexPolicy

theorem SameConstruction.refl (s : State) : SameConstruction s s := ⟨rfl, rfl, rfl⟩

theorem SameConstruction.trans {s t u : State} (hst : SameConstruction s t) (htu : SameConstruction t u) :
    SameConstruction s u :=
  ⟨htu.code.trans hst.code, htu.rom.trans hst.rom, htu.indexPolicy.trans hst.indexPolicy⟩

/-! ### The state operations -/

theorem sameConstruction_writeReg (s : State) (r : RegIx) (v : Word) : SameConstruction s (s.writeReg r v) :=
  ⟨s.writeReg_code r v, s.writeReg_rom r v, s.writeReg_indexPolicy r v⟩

theorem sameConstruction_writeCell (s : State) (a : CellAddr) (v : Word) : SameConstruction s (s.writeCell a v) :=
  ⟨s.writeCell_code a v, s.writeCell_rom a v, s.writeCell_indexPolicy a v⟩

theorem sameConstruction_jumpTo (s : State) (rs ro : RegIx) : SameConstruction s (s.jumpTo rs ro) :=
  ⟨s.jumpTo_code rs ro, s.jumpTo_rom rs ro, s.jumpTo_indexPolicy rs ro⟩

theorem sameConstruction_advancePc (s : State) : SameConstruction s s.advancePc :=
  ⟨s.advancePc_code, s.advancePc_rom, s.advancePc_indexPolicy⟩

theorem sameConstruction_raise (s : State) (x : Termination) : SameConstruction s (s.raise x) :=
  ⟨s.raise_code x, s.raise_rom x, s.raise_indexPolicy x⟩

theorem sameConstruction_takeTurn (s : State) : SameConstruction s s.takeTurn :=
  ⟨s.takeTurn_code, s.takeTurn_rom, s.takeTurn_indexPolicy⟩

/-! ### The agents -/

theorem sameConstruction_timerStep (s : State) : SameConstruction s (timerStep s) := ⟨rfl, rfl, rfl⟩

theorem sameConstruction_serviceTick (s : State) : SameConstruction s (serviceTick s) := ⟨rfl, rfl, rfl⟩

theorem sameConstruction_workerStep (s : State) : SameConstruction s (workerStep s) := by
  rcases workerStep_cases s with hw | ⟨_, _, _, hw⟩ | ⟨_, _, _, _, _, hw⟩
  · rw [hw]; exact .refl s
  · rw [hw]; exact ⟨rfl, rfl, rfl⟩
  · rw [hw]; exact ⟨rfl, rfl, rfl⟩

theorem sameConstruction_consumeKey (k : Byte) (rest : List Byte) (s : State) :
    SameConstruction s (consumeKey k rest s) := by
  have hq : SameConstruction s { s with keyq := rest } := ⟨rfl, rfl, rfl⟩
  rcases consumeKey_cases k rest s with ⟨_, hk⟩ | ⟨_, hk⟩
  · rw [hk]; exact hq.trans (sameConstruction_raise _ _)
  · rw [hk]; exact hq

/-- No instruction writes the construction: STR, the only store, reaches data memory alone (R103). -/
theorem exec_sameConstruction {i : Instr} {s t : State} (h : exec i s = .next t) : SameConstruction s t := by
  rcases exec_cases h with ⟨r, v, _, rfl⟩ | ⟨rs, ro, _, rfl⟩ | rfl | ⟨rv, _, _, a, _, _, _, rfl⟩ | ⟨x, _, rfl⟩
  · exact sameConstruction_writeReg s r v
  · exact sameConstruction_jumpTo s rs ro
  · exact .refl _
  · exact sameConstruction_writeCell s a (s.readReg rv)
  · exact sameConstruction_raise s x

theorem instructionStep_sameConstruction {s t : State} (hr : s.run = .running) (h : instructionStep s = .next t) :
    SameConstruction s t := by
  rcases instructionStep_cases hr h with ⟨_, rfl⟩ | ⟨_, u, _, hu, ⟨_, rfl⟩ | ⟨_, _, _, rfl⟩⟩
  · exact sameConstruction_raise s _
  · exact (exec_sameConstruction hu).trans (sameConstruction_advancePc u)
  · exact exec_sameConstruction hu

theorem coreCycle_sameConstruction {s t : State} (hr : s.run = .running) (h : coreCycle s = .next t) :
    SameConstruction s t := by
  rcases coreCycle_cases h with ⟨k, rest, _, rfl⟩ | ⟨_, _, rfl⟩ | ⟨_, _, hi⟩
  · exact sameConstruction_consumeKey k rest s
  · exact sameConstruction_serviceTick s
  · exact instructionStep_sameConstruction hr hi

/-! ### The step -/

/-- Every step stays within one constructed machine, whichever agent moves. -/
theorem step_sameConstruction {s t : State} (h : step s = .next t) : SameConstruction s t := by
  have hturn : SameConstruction s s.takeTurn := sameConstruction_takeTurn s
  rcases step_cases h with ⟨_, rfl⟩ | ⟨_, _, rfl⟩ | ⟨_, _, rfl⟩ | ⟨hr, _, hc⟩
  · exact .refl _
  · exact hturn.trans (sameConstruction_workerStep _)
  · exact hturn.trans (sameConstruction_timerStep _)
  · exact hturn.trans (coreCycle_sameConstruction hr hc)

/-- Settles O52: the three fields are what `step_sameConstruction` keeps. -/
theorem codeRomAndPolicyNeverChange : Obligations.CodeRomAndPolicyNeverChange := by
  intro s t h
  have hsame : SameConstruction s t := step_sameConstruction h
  exact ⟨hsame.code, hsame.rom, hsame.indexPolicy⟩

end Sys2Proof.Machine
end

section
/-! PROOFS. Reset and construction: what a successful construction answers (R152), and that it starts from registers
that are zero (R16). -/

namespace Sys2Proof.Machine

/-- R16 at reset. -/
@[simp] theorem State.reset_readReg (r : RegIx) : State.reset.readReg r = 0#16 := Vector.getElem_replicate r.isLt

/-- All that a successful construction can do: both inputs fit, and the state is the reset state with the program, the
ROM image and the policy placed in it (R152). -/
theorem construct_cases {p : Config.IndexPolicy} {code rom : List Word} {s : State}
    (h : construct p code rom = .next s) :
    code.length ≤ Config.maxCodeLen ∧ rom.length ≤ Config.maxRomLen ∧
      s = { State.reset with
              code := code
              rom := rom
              mem := placeRom 0 rom State.reset.mem
              indexPolicy := p } := by
  unfold construct at h
  split at h
  · cases h
  next hcode =>
    split at h
    · cases h
    next hrom =>
      cases h
      exact ⟨Nat.le_of_not_lt hcode, Nat.le_of_not_lt hrom, rfl⟩

/-- Construction gives no register a value of its own. -/
theorem construct_readReg {p : Config.IndexPolicy} {code rom : List Word} {s : State}
    (h : construct p code rom = .next s) (r : RegIx) : s.readReg r = State.reset.readReg r := by
  obtain ⟨_, _, rfl⟩ := construct_cases h
  rfl

/-- Settles O53: the registers are zero at reset, and construction keeps them as reset has them. -/
theorem registersAreZeroAfterConstruction : Obligations.RegistersAreZeroAfterConstruction := by
  refine ⟨State.reset_readReg, ?_⟩
  intro p code rom s h r
  calc s.readReg r = State.reset.readReg r := construct_readReg h r
    _ = 0#16 := State.reset_readReg r

end Sys2Proof.Machine
end

section
/-! PROOFS. What one step can do to data memory: nothing, or one store below the ROM region (`20_memory.md` section 1,
R41, R42, R47). -/

namespace Sys2Proof.Machine

/-- `m'` is `m`, or `m` with one cell of a writable segment written (R47). -/
def AtMostOneWritableStore (m m' : Memory) : Prop :=
  m' = m ∨ ∃ (a : CellAddr) (v : Word), a.seg.toNat < Config.romBase ∧ m' = m.write a v

/-- Such a store leaves every cell of the ROM region: a cell there has another segment than the cell written. -/
theorem AtMostOneWritableStore.read_rom {m m' : Memory} (h : AtMostOneWritableStore m m') {a : CellAddr}
    (ha : Config.romBase ≤ a.seg.toNat) : m'.read a = m.read a := by
  rcases h with rfl | ⟨b, v, hb, rfl⟩
  · rfl
  · have hne : a ≠ b := by
      rintro rfl
      exact absurd hb (Nat.not_lt.mpr ha)
    exact Memory.read_write_other hne m v

/-- A segment value that passes STR's check names a writable cell: the check sees the whole value, and the low 8 bits of
a value below 128 are the value itself (R41, R47). -/
theorem seg_lt_romBase_of_check {p : Config.IndexPolicy} {seg off : Word} {a : CellAddr}
    (hcheck : readOnlySegment seg = false) (hcell : cellAddress p seg off = some a) :
    a.seg.toNat < Config.romBase := by
  have hseg : seg.toNat < 128 := readOnlySegment_eq_false.mp hcheck
  obtain ⟨rfl, _⟩ := cellAddress_eq_some hcell
  calc (idx8 seg).toNat = seg.toNat % 256 := toNat_idx8 seg
    _ ≤ seg.toNat := Nat.mod_le _ _
    _ < Config.romBase := hseg

/-! ### The agents that never touch data memory -/

@[simp] theorem workerStep_mem (s : State) : (workerStep s).mem = s.mem := by
  rcases workerStep_cases s with hw | ⟨_, _, _, hw⟩ | ⟨_, _, _, _, _, hw⟩ <;> rw [hw]

@[simp] theorem consumeKey_mem (k : Byte) (rest : List Byte) (s : State) : (consumeKey k rest s).mem = s.mem := by
  rcases consumeKey_cases k rest s with ⟨_, hk⟩ | ⟨_, hk⟩
  · rw [hk, State.raise_mem]
  · rw [hk]

/-! ### The core -/

/-- R42: of all instructions STR alone writes a cell, and only behind its check. -/
theorem exec_mem {i : Instr} {s t : State} (h : exec i s = .next t) : AtMostOneWritableStore s.mem t.mem := by
  rcases exec_cases h with ⟨r, v, _, rfl⟩ | ⟨rs, ro, _, rfl⟩ | rfl | ⟨rv, _, _, a, _, hcheck, hcell, rfl⟩ | ⟨x, _, rfl⟩
  · exact .inl (s.writeReg_mem r v)
  · exact .inl (s.jumpTo_mem rs ro)
  · exact .inl rfl
  · exact .inr ⟨a, s.readReg rv, seg_lt_romBase_of_check hcheck hcell, s.writeCell_mem a _⟩
  · exact .inl (s.raise_mem x)

theorem instructionStep_mem {s t : State} (hr : s.run = .running) (h : instructionStep s = .next t) :
    AtMostOneWritableStore s.mem t.mem := by
  rcases instructionStep_cases hr h with ⟨_, rfl⟩ | ⟨_, u, _, hu, ⟨_, rfl⟩ | ⟨_, _, _, rfl⟩⟩
  · exact .inl (s.raise_mem _)
  · rw [u.advancePc_mem]
    exact exec_mem hu
  · exact exec_mem hu

theorem coreCycle_mem {s t : State} (hr : s.run = .running) (h : coreCycle s = .next t) :
    AtMostOneWritableStore s.mem t.mem := by
  rcases coreCycle_cases h with ⟨k, rest, _, rfl⟩ | ⟨_, _, rfl⟩ | ⟨_, _, hi⟩
  · exact .inl (consumeKey_mem k rest s)
  · exact .inl rfl
  · exact instructionStep_mem hr hi

/-! ### The step -/

/-- Every step, whichever agent moves, stores at most one cell, and that cell lies below the ROM region. -/
theorem step_mem {s t : State} (h : step s = .next t) : AtMostOneWritableStore s.mem t.mem := by
  rcases step_cases h with ⟨_, rfl⟩ | ⟨_, _, rfl⟩ | ⟨_, _, rfl⟩ | ⟨hr, _, hc⟩
  · exact .inl rfl
  · exact .inl (workerStep_mem s.takeTurn)
  · exact .inl rfl
  · exact coreCycle_mem (s := s.takeTurn) hr hc

/-- Settles O47: the one store a step may make is to a writable segment, so no cell of the ROM region changes. -/
theorem romIsNeverWritten : Obligations.RomIsNeverWritten := by
  intro s t h a ha
  exact (step_mem h).read_rom ha

end Sys2Proof.Machine
end

section
/-! PROOFS. The fields of a word and its immediate (`30_encoding.md`, R64 to R66). -/

namespace Sys2Proof

/-- R65: the number of a word is the number its four fields spell in base 16. -/
theorem toNat_eq_fields (w : Word) :
    w.toNat = (splitWord w).opcode.toNat * 4096 + (splitWord w).arg0.toNat * 256 +
      (splitWord w).arg1.toNat * 16 + (splitWord w).arg2.toNat := by
  rw [← toNat_joinFields, joinFields_splitWord]

/-- Settles O1: R64's bit slices are `toNat_splitWord`, and joining the fields gives the word back. -/
theorem fieldsSplitAndRejoin : Obligations.FieldsSplitAndRejoin := by
  intro w
  obtain ⟨hop, h0, h1, h2⟩ := toNat_splitWord w
  have hlow : (splitWord w).arg2.toNat = w.toNat / 2 ^ 0 % 2 ^ 4 := by rw [pow_zero, Nat.div_one]; exact h2
  exact ⟨hop, h0, h1, hlow, toNat_eq_fields w⟩

/-! ### The immediate -/

/-- R66: `imm8 = arg1 * 16 + arg2`. -/
theorem toNat_imm8Of (f : Fields) : (imm8Of f).toNat = f.arg1.toNat * 16 + f.arg2.toNat :=
  toNat_append_eq f.arg1 f.arg2

/-- R66: `imm8 = w[7:0]`. -/
theorem toNat_imm8Of_splitWord (w : Word) : (imm8Of (splitWord w)).toNat = w.toNat % 256 := by
  obtain ⟨_, _, h1, h2⟩ := toNat_splitWord w
  calc (imm8Of (splitWord w)).toNat
      = (splitWord w).arg1.toNat * 16 + (splitWord w).arg2.toNat := toNat_imm8Of _
    _ = w.toNat / 16 % 16 * 16 + w.toNat % 16 := by rw [h1, h2]
    _ = w.toNat % 256 := by omega

/-! ### The rows of form RI (R67, R68) -/

theorem decodeFields_addc {f : Fields} (h : f.opcode.toNat = 3) :
    decodeFields f = .addc (regOf f.arg0) (imm8Of f) := by
  simp only [decodeFields, h]

theorem decodeFields_subc {f : Fields} (h : f.opcode.toNat = 4) :
    decodeFields f = .subc (regOf f.arg0) (imm8Of f) := by
  simp only [decodeFields, h]

theorem decodeFields_lrc {f : Fields} (h : f.opcode.toNat = 11) :
    decodeFields f = .lrc (regOf f.arg0) (imm8Of f) := by
  simp only [decodeFields, h]

/-- Settles O2: `arg1 : arg2` is the low byte, `zext16` keeps its number, and the three rows of form RI carry it. -/
theorem immediateIsTheZeroExtendedLowByte : Obligations.ImmediateIsTheZeroExtendedLowByte := by
  intro w
  refine ⟨toNat_imm8Of _, toNat_imm8Of_splitWord w, Machine.toNat_zext16 _, ?addc, ?subc, ?lrc⟩
  case addc => exact fun h => ⟨_, decodeFields_addc h⟩
  case subc => exact fun h => ⟨_, decodeFields_subc h⟩
  case lrc => exact fun h => ⟨_, decodeFields_lrc h⟩

end Sys2Proof
end

section
/-! PROOFS. CPY and NOT (`40_extended.md`, R81, R82): the word of an X2 form, and what an instruction that writes one
register answers. -/

namespace Sys2Proof.Machine

/-! ### Words of form X2 (R67, R70) -/

/-- The number of the pattern `0000 ssss bbbb cccc` is the word the encoder packs from the same fields. -/
theorem wordX2_eq_packX2 (sub : BitVec 4) (b c : RegIx) : Claims.wordX2 sub.toNat b c = packX2 sub b c := by
  have h := ofNat_eq_joinFields 0#4 sub (fieldOf b) (fieldOf c)
  simpa [Claims.wordX2, packX2, fieldOf] using h

/-- Opcode 0 leaves the choice to the extended group, selected by `arg0` (R70). -/
theorem decode_wordX2 (sub : BitVec 4) (b c : RegIx) :
    decode (Claims.wordX2 sub.toNat b c) =
      decodeExtended { opcode := 0#4, arg0 := sub, arg1 := fieldOf b, arg2 := fieldOf c } := by
  rw [wordX2_eq_packX2, packX2, decode_joinFields]
  rfl

/-! ### Writing one register -/

/-- The frame of a register write. -/
theorem onlyRegister_writeReg (s : State) (r : RegIx) (v : Word) : OnlyRegister r s (s.writeReg r v) :=
  ⟨rfl, fun _ hq => s.readReg_writeReg_other hq v⟩

/-- What an instruction answers whose meaning is `x[r] <- v`: the register holds `v`, and nothing else differs. -/
theorem exec_answers_of_writeReg {i : Instr} {s : State} {r : RegIx} {v : Word}
    (h : exec i s = .next (s.writeReg r v)) :
    ∃ t, exec i s = .next t ∧ t.readReg r = v ∧ OnlyRegister r s t :=
  ⟨s.writeReg r v, h, s.readReg_writeReg_same r v, onlyRegister_writeReg s r v⟩

/-! ### CPY and NOT -/

theorem exec_cpy (rd rs : RegIx) (s : State) : exec (.cpy rd rs) s = .next (s.writeReg rd (s.readReg rs)) := rfl

theorem exec_not (rd rs : RegIx) (s : State) : exec (.not rd rs) s = .next (s.writeReg rd (~~~ s.readReg rs)) := rfl

/-- Settles O9: CPY's one effect is the register write `x[rd] <- x[rs]`, with the source read before it. -/
theorem cpyCopiesTheRegister : Obligations.CpyCopiesTheRegister := by
  intro rd rs s
  exact ⟨decode_wordX2 1#4 rd rs, exec_answers_of_writeReg (exec_cpy rd rs s)⟩

/-- Settles O10: NOT's one effect is the register write `x[rd] <- ~x[rs]`, and the complement is taken from 65535. -/
theorem notComplementsAllSixteenBits : Obligations.NotComplementsAllSixteenBits := by
  intro rd rs s
  obtain ⟨t, hexec, hvalue, hframe⟩ := exec_answers_of_writeReg (exec_not rd rs s)
  have hnumber : (t.readReg rd).toNat = 65535 - (s.readReg rs).toNat := by
    rw [hvalue]
    exact BitVec.toNat_not
  exact ⟨decode_wordX2 2#4 rd rs, t, hexec, hnumber, hframe⟩

end Sys2Proof.Machine
end

section
/-! PROOFS. ADD, SUB, ADDC, SUBC (`41_arithmetic.md`, R87 to R90): the words of the forms R3 and RI, and the sum and the
difference of two words as numbers. -/

namespace Sys2Proof.Machine

/-! ### Words of form R3 (R67, R68) -/

/-- The number of the pattern `oooo aaaa bbbb cccc` is the word the encoder packs from the same fields. -/
theorem wordR3_eq_packR3 (op : BitVec 4) (a b c : RegIx) : Claims.wordR3 op.toNat a b c = packR3 op a b c :=
  ofNat_eq_joinFields op (fieldOf a) (fieldOf b) (fieldOf c)

theorem decode_wordR3 (op : BitVec 4) (a b c : RegIx) :
    decode (Claims.wordR3 op.toNat a b c) =
      decodeFields { opcode := op, arg0 := fieldOf a, arg1 := fieldOf b, arg2 := fieldOf c } := by
  rw [wordR3_eq_packR3, packR3, decode_joinFields]

/-! ### Words of form RI (R66 to R68) -/

/-- The number of the pattern `oooo aaaa iiii iiii` is the word the encoder packs, the byte cut into its two nibbles. -/
theorem wordRI_eq_packRI (op : BitVec 4) (a : RegIx) (imm8 : BitVec 8) :
    Claims.wordRI op.toNat a imm8 = packRI op a imm8 := by
  have h := ofNat_eq_joinFields op (fieldOf a) (hiNibble imm8) (loNibble imm8)
  rw [Nat.add_assoc, ← toNat_eq_nibbles] at h
  exact h

theorem decode_wordRI (op : BitVec 4) (a : RegIx) (imm8 : BitVec 8) :
    decode (Claims.wordRI op.toNat a imm8) =
      decodeFields { opcode := op, arg0 := fieldOf a, arg1 := hiNibble imm8, arg2 := loNibble imm8 } := by
  rw [wordRI_eq_packRI, packRI, decode_joinFields]

/-- The two nibbles of a byte, in the fields that carry an immediate, are that byte again (R66). -/
theorem imm8Of_nibbles (o a : BitVec 4) (imm8 : BitVec 8) :
    imm8Of { opcode := o, arg0 := a, arg1 := hiNibble imm8, arg2 := loNibble imm8 } = imm8 :=
  hiNibble_append_loNibble imm8

theorem decode_wordRI_addc (rd : RegIx) (imm8 : BitVec 8) : decode (Claims.wordRI 3 rd imm8) = .addc rd imm8 := by
  have h := decode_wordRI 3#4 rd imm8
  rwa [decodeFields_addc rfl, imm8Of_nibbles, regOf_fieldOf] at h

theorem decode_wordRI_subc (rd : RegIx) (imm8 : BitVec 8) : decode (Claims.wordRI 4 rd imm8) = .subc rd imm8 := by
  have h := decode_wordRI 4#4 rd imm8
  rwa [decodeFields_subc rfl, imm8Of_nibbles, regOf_fieldOf] at h

/-! ### Differences of words -/

/-- R9: a difference of words is the integer difference modulo 65536, taken in 0 to 65535. -/
theorem toNat_sub_eq_emod (a b : Word) : ((a - b).toNat : Int) = (a.toNat - b.toNat) % 65536 := by
  have hb := b.isLt
  rw [BitVec.toNat_sub]
  omega

/-! ### The four instructions -/

theorem exec_add (rd ra rb : RegIx) (s : State) :
    exec (.add rd ra rb) s = .next (s.writeReg rd (s.readReg ra + s.readReg rb)) := rfl

theorem exec_sub (rd ra rb : RegIx) (s : State) :
    exec (.sub rd ra rb) s = .next (s.writeReg rd (s.readReg ra - s.readReg rb)) := rfl

theorem exec_addc (rd : RegIx) (imm8 : BitVec 8) (s : State) :
    exec (.addc rd imm8) s = .next (s.writeReg rd (s.readReg rd + zext16 imm8)) := rfl

theorem exec_subc (rd : RegIx) (imm8 : BitVec 8) (s : State) :
    exec (.subc rd imm8) s = .next (s.writeReg rd (s.readReg rd - zext16 imm8)) := rfl

/-- Settles O15: ADD's one effect is the register write `x[rd] <- x[ra] + x[rb]`, and words add modulo 65536. -/
theorem addIsTheSumModulo65536 : Obligations.AddIsTheSumModulo65536 := by
  intro rd ra rb s
  obtain ⟨t, hexec, hvalue, hframe⟩ := exec_answers_of_writeReg (exec_add rd ra rb s)
  have hnumber : (t.readReg rd).toNat = ((s.readReg ra).toNat + (s.readReg rb).toNat) % 65536 := by
    rw [hvalue]
    exact BitVec.toNat_add _ _
  exact ⟨decode_wordR3 1#4 rd ra rb, t, hexec, hnumber, hframe⟩

/-- Settles O16: SUB's one effect is the register write `x[rd] <- x[ra] - x[rb]`, an integer difference modulo 65536. -/
theorem subIsTheDifferenceModulo65536 : Obligations.SubIsTheDifferenceModulo65536 := by
  intro rd ra rb s
  obtain ⟨t, hexec, hvalue, hframe⟩ := exec_answers_of_writeReg (exec_sub rd ra rb s)
  have hnumber : ((t.readReg rd).toNat : Int) = ((s.readReg ra).toNat - (s.readReg rb).toNat) % 65536 := by
    rw [hvalue]
    exact toNat_sub_eq_emod _ _
  exact ⟨decode_wordR3 2#4 rd ra rb, t, hexec, hnumber, hframe⟩

/-- Settles O17: ADDC's one effect is the register write `x[rd] <- x[rd] + zext16 imm8`, and `zext16` keeps the number. -/
theorem addcAddsTheImmediate : Obligations.AddcAddsTheImmediate := by
  intro rd imm8 s
  obtain ⟨t, hexec, hvalue, hframe⟩ := exec_answers_of_writeReg (exec_addc rd imm8 s)
  have hnumber : (t.readReg rd).toNat = ((s.readReg rd).toNat + imm8.toNat) % 65536 := by
    rw [hvalue, ← toNat_zext16 imm8]
    exact BitVec.toNat_add _ _
  exact ⟨decode_wordRI_addc rd imm8, t, hexec, hnumber, hframe⟩

/-- Settles O18: SUBC's one effect is the register write `x[rd] <- x[rd] - zext16 imm8`, and `zext16` keeps the number. -/
theorem subcSubtractsTheImmediate : Obligations.SubcSubtractsTheImmediate := by
  intro rd imm8 s
  obtain ⟨t, hexec, hvalue, hframe⟩ := exec_answers_of_writeReg (exec_subc rd imm8 s)
  have hnumber : ((t.readReg rd).toNat : Int) = ((s.readReg rd).toNat - imm8.toNat) % 65536 := by
    rw [hvalue, ← toNat_zext16 imm8]
    exact toNat_sub_eq_emod _ _
  exact ⟨decode_wordRI_subc rd imm8, t, hexec, hnumber, hframe⟩

end Sys2Proof.Machine
end

section
/-! PROOFS. CMP, JLT, JGT, JEQ (`42_compare_branch.md`, R95 to R98): the three flags as numbers, and a conditional jump as
JMP under a test of the whole Word. -/

namespace Sys2Proof.Machine

open Host (Outcome)

/-! ### CMP -/

theorem exec_cmp (rf ra rb : RegIx) (s : State) :
    exec (.cmp rf ra rb) s = .next (s.writeReg rf (compareFlag (s.readReg ra) (s.readReg rb))) := rfl

/-- R95: the flag as a number, one clause per outcome. -/
theorem toNat_compareFlag (a b : Word) :
    (a.toNat < b.toNat → (compareFlag a b).toNat = 0) ∧ (a.toNat = b.toNat → (compareFlag a b).toNat = 1) ∧
    (a.toNat > b.toNat → (compareFlag a b).toNat = 2) := by
  obtain ⟨hless, hflag⟩ | ⟨hequal, hflag⟩ | ⟨hgreater, hflag⟩ := compareFlag_cases a b <;> rw [hflag]
  · exact ⟨fun _ => rfl, fun h => by omega, fun h => by omega⟩
  · exact ⟨fun h => by omega, fun _ => rfl, fun h => by omega⟩
  · exact ⟨fun h => by omega, fun h => by omega, fun _ => rfl⟩

/-- Settles O19: CMP's one effect is the register write `x[rf] <- compareFlag x[ra] x[rb]`, with both sources read before
it, and the flag is 0, 1 or 2 by the order of the two numbers. -/
theorem cmpLeavesTheThreeValuedFlag : Obligations.CmpLeavesTheThreeValuedFlag := by
  intro rf ra rb s
  obtain ⟨t, hexec, hvalue, hframe⟩ := exec_answers_of_writeReg (exec_cmp rf ra rb s)
  obtain ⟨hless, hequal, hgreater⟩ := toNat_compareFlag (s.readReg ra) (s.readReg rb)
  rw [← hvalue] at hless hequal hgreater
  exact ⟨decode_wordR3 5#4 rf ra rb, t, hexec, hless, hequal, hgreater, hframe⟩

/-! ### The tests of the conditional jumps (R96 to R99) -/

theorem saysLess_iff {v : Word} : saysLess v = true ↔ v.toNat = 0 := by
  rw [saysLess, beq_eq_decide_toNat]
  exact decide_eq_true_iff

theorem saysGreater_iff {v : Word} : saysGreater v = true ↔ v.toNat = 2 := by
  rw [saysGreater, beq_eq_decide_toNat]
  exact decide_eq_true_iff

theorem saysEqual_iff {v : Word} : saysEqual v = true ↔ v.toNat = 1 := by
  rw [saysEqual, beq_eq_decide_toNat]
  exact decide_eq_true_iff

/-! ### The conditional jumps as JMP under a test -/

theorem exec_jmp (rs ro : RegIx) (s : State) : exec (.jmp rs ro) s = .next (s.jumpTo rs ro) := rfl

theorem exec_jlt (rf rs ro : RegIx) (s : State) :
    exec (.jlt rf rs ro) s = if (s.readReg rf).toNat = 0 then exec (.jmp rs ro) s else .next s := by
  simp only [exec, execJlt, saysLess_iff, apply_ite Outcome.next, execJmp]

theorem exec_jgt (rf rs ro : RegIx) (s : State) :
    exec (.jgt rf rs ro) s = if (s.readReg rf).toNat = 2 then exec (.jmp rs ro) s else .next s := by
  simp only [exec, execJgt, saysGreater_iff, apply_ite Outcome.next, execJmp]

theorem exec_jeq (rf rs ro : RegIx) (s : State) :
    exec (.jeq rf rs ro) s = if (s.readReg rf).toNat = 1 then exec (.jmp rs ro) s else .next s := by
  simp only [exec, execJeq, saysEqual_iff, apply_ite Outcome.next, execJmp]

/-- What an instruction answers that is JMP under the test `p` and nothing otherwise. -/
theorem exec_answers_of_ite_jmp {i : Instr} {rs ro : RegIx} {s : State} {p : Prop} [Decidable p]
    (h : exec i s = if p then exec (.jmp rs ro) s else .next s) :
    ∃ t, exec i s = .next t ∧ (p → exec (.jmp rs ro) s = .next t) ∧ (¬ p → t = s) := by
  by_cases hp : p
  · rw [if_pos hp, exec_jmp] at h
    exact ⟨s.jumpTo rs ro, h, fun _ => exec_jmp rs ro s, fun hn => absurd hp hn⟩
  · rw [if_neg hp] at h
    exact ⟨s, h, fun hy => absurd hy hp, fun _ => rfl⟩

/-- Settles O20: each of the three is JMP under a test of the whole Word for its flag's number. -/
theorem conditionalJumpsTestTheWholeWord : Obligations.ConditionalJumpsTestTheWholeWord := by
  intro rf rs ro s
  exact ⟨decode_wordR3 6#4 rf rs ro, decode_wordR3 7#4 rf rs ro, decode_wordR3 8#4 rf rs ro,
    exec_answers_of_ite_jmp (exec_jlt rf rs ro s), exec_answers_of_ite_jmp (exec_jgt rf rs ro s),
    exec_answers_of_ite_jmp (exec_jeq rf rs ro s)⟩

end Sys2Proof.Machine
end

section
/-! PROOFS. LRC (`43_load_store.md`, R104): its word, and the register write of the zero-extended byte. -/

namespace Sys2Proof.Machine

theorem decode_wordRI_lrc (rd : RegIx) (imm8 : BitVec 8) : decode (Claims.wordRI 11 rd imm8) = .lrc rd imm8 := by
  have h := decode_wordRI 11#4 rd imm8
  rwa [decodeFields_lrc rfl, imm8Of_nibbles, regOf_fieldOf] at h

theorem exec_lrc (rd : RegIx) (imm8 : BitVec 8) (s : State) :
    exec (.lrc rd imm8) s = .next (s.writeReg rd (zext16 imm8)) := rfl

/-- Settles O26: LRC's one effect is the register write `x[rd] <- zext16 imm8`, and `zext16` keeps the number. -/
theorem lrcLoadsTheZeroExtendedByte : Obligations.LrcLoadsTheZeroExtendedByte := by
  intro rd imm8 s
  obtain ⟨t, hexec, hvalue, hframe⟩ := exec_answers_of_writeReg (exec_lrc rd imm8 s)
  have hnumber : (t.readReg rd).toNat = imm8.toNat := by
    rw [hvalue]
    exact toNat_zext16 imm8
  exact ⟨decode_wordRI_lrc rd imm8, t, hexec, hnumber, hframe⟩

end Sys2Proof.Machine
end

section
/-! PROOFS. AND, OR and XOR (`44_bitwise.md`, R106 to R108): the register write of each, read bit by bit. -/

namespace Sys2Proof.Machine

/-! ### The three instructions -/

theorem exec_and (rd ra rb : RegIx) (s : State) :
    exec (.and rd ra rb) s = .next (s.writeReg rd (s.readReg ra &&& s.readReg rb)) := rfl

theorem exec_or (rd ra rb : RegIx) (s : State) :
    exec (.or rd ra rb) s = .next (s.writeReg rd (s.readReg ra ||| s.readReg rb)) := rfl

theorem exec_xor (rd ra rb : RegIx) (s : State) :
    exec (.xor rd ra rb) s = .next (s.writeReg rd (s.readReg ra ^^^ s.readReg rb)) := rfl

/-- An instruction whose one effect is to write a word with the bits `bit k` answers that register, read bit by bit. -/
theorem exec_answers_bits_of_writeReg {i : Instr} {s : State} {r : RegIx} {v : Word} {bit : Nat → Bool}
    (h : exec i s = .next (s.writeReg r v)) (hbit : ∀ k, v.getLsbD k = bit k) :
    ∃ t, exec i s = .next t ∧ OnlyRegister r s t ∧ ∀ k < 16, (t.readReg r).getLsbD k = bit k := by
  obtain ⟨t, hexec, hvalue, hframe⟩ := exec_answers_of_writeReg h
  exact ⟨t, hexec, hframe, fun k _ => hvalue ▸ hbit k⟩

/-- Settles O28: each of the three has one effect, the register write of the AND, OR or XOR of the two source words, with
both sources read before it; and bit `k` of such a word is the operation on the two bits `k`. -/
theorem bitwiseActOnEachBit : Obligations.BitwiseActOnEachBit := by
  intro rd ra rb s
  exact ⟨decode_wordR3 12#4 rd ra rb, decode_wordR3 13#4 rd ra rb, decode_wordR3 14#4 rd ra rb,
    exec_answers_bits_of_writeReg (exec_and rd ra rb s) fun _ => BitVec.getLsbD_and,
    exec_answers_bits_of_writeReg (exec_or rd ra rb s) fun _ => BitVec.getLsbD_or,
    exec_answers_bits_of_writeReg (exec_xor rd ra rb s) fun _ => BitVec.getLsbD_xor⟩

end Sys2Proof.Machine
end

section
/-! PROOFS. HALT (`60_exceptions.md`, R114): the word of an N form, what a raised termination leaves unchanged (R119), and
that a successful end is no fault (R149). -/

namespace Sys2Proof.Machine

/-! ### Words of form N (R67, R70) -/

/-- The number of the pattern `0000 ssss xxxx xxxx` is the word the encoder packs, the byte cut into its two nibbles. -/
theorem wordN_eq_packN (sub : BitVec 4) (ignored : BitVec 8) : Claims.wordN sub.toNat ignored = packN sub ignored := by
  have h := ofNat_eq_joinFields 0#4 sub (hiNibble ignored) (loNibble ignored)
  rw [Nat.add_assoc, ← toNat_eq_nibbles] at h
  simpa [Claims.wordN, packN] using h

/-- Opcode 0 leaves the choice to the extended group, selected by `arg0` (R70). -/
theorem decode_wordN (sub : BitVec 4) (ignored : BitVec 8) :
    decode (Claims.wordN sub.toNat ignored) =
      decodeExtended { opcode := 0#4, arg0 := sub, arg1 := hiNibble ignored, arg2 := loNibble ignored } := by
  rw [wordN_eq_packN, packN, decode_joinFields]
  rfl

theorem decodeExtended_halt {f : Fields} (h : f.arg0.toNat = 0) : decodeExtended f = .halt (imm8Of f) := by
  simp only [decodeExtended, h]

theorem decode_wordN_halt (ignored : BitVec 8) : decode (Claims.wordN 0 ignored) = .halt ignored := by
  have h := decode_wordN 0#4 ignored
  rwa [decodeExtended_halt rfl, imm8Of_nibbles] at h

/-! ### Ends of a run -/

/-- R119: a raised termination records its cause and its status, and changes nothing outside the run state. -/
theorem endedBy_raise (s : State) (x : Termination) : Claims.endedBy x.cause x.status s (s.raise x) :=
  ⟨rfl, s.raise_run x, s.raise_cause x, s.raise_exitStatus x⟩

/-- R149: neither of the two causes of a successful end is a fault. -/
theorem State.endedWell.not_faulted {s : State} (h : s.endedWell) : ¬ s.faulted := by
  rintro ⟨_, hfault⟩
  obtain ⟨_, hcause | hcause⟩ := h
  · exact hfault (by rw [hcause]; rfl)
  · exact hfault (by rw [hcause]; rfl)

/-! ### HALT -/

theorem exec_halt (ignored : BitVec 8) (s : State) : exec (.halt ignored) s = .next (s.raise .halt) := rfl

/-- Settles O8: HALT's one effect is to raise its termination, whose status is 0 and which emits no diagnostic; its cause
is one of the two of a successful end, so the end is no fault. -/
theorem haltAlwaysEndsWithStatusZero : Obligations.HaltAlwaysEndsWithStatusZero := by
  intro ignored s
  have hdiag : (s.raise .halt).diag = s.diag := List.append_nil s.diag
  have hwell : (s.raise .halt).endedWell := ⟨s.raise_run .halt, .inl (s.raise_cause .halt)⟩
  exact ⟨decode_wordN_halt ignored, s.raise .halt, exec_halt ignored s, endedBy_raise s .halt, hdiag, hwell,
    hwell.not_faulted⟩

end Sys2Proof.Machine
end

section
/-! PROOFS. The two invariants of data memory: its canonical form (log 17) and the ROM region (R41, R48). Both follow from
what one step can do to memory, `step_mem`. -/

namespace Sys2Proof.Machine

/-- A store, like no store, keeps the canonical form. -/
theorem AtMostOneWritableStore.wf {m m' : Memory} (h : AtMostOneWritableStore m m') (hm : m.wf) : m'.wf := by
  rcases h with rfl | ⟨a, v, _, rfl⟩
  · exact hm
  · exact Memory.wf_write hm a v

/-- Settles O48: a step stores at most one cell, and a store keeps the canonical form. -/
theorem memoryStaysCanonical : Obligations.MemoryStaysCanonical := by
  intro s t hs h
  exact (step_mem h).wf hs

/-- No step changes a cell of the ROM region or the image that the region is compared with. -/
theorem step_romHoldsImage {s t : State} (h : step s = .next t) (hs : RomHoldsImage s) : RomHoldsImage t := by
  intro a ha
  calc t.readCell a = s.readCell a := (step_mem h).read_rom ha
    _ = romWord s.rom a := hs a ha
    _ = romWord t.rom a := by rw [(step_sameConstruction h).rom]

theorem step_inputsFit {s t : State} (h : step s = .next t) (hs : InputsFit s) : InputsFit t := by
  obtain ⟨hcode, hrom⟩ := hs
  have hsame : SameConstruction s t := step_sameConstruction h
  exact ⟨hsame.code ▸ hcode, hsame.rom ▸ hrom⟩

/-- Settles O51: the region, the image and the two lengths are each what they were before the step. -/
theorem romRegionHoldsTheImage : Obligations.RomRegionHoldsTheImage := by
  intro s t hrom hfit h
  exact ⟨step_romHoldsImage h hrom, step_inputsFit h hfit⟩

end Sys2Proof.Machine
end

section
/-! PROOFS. What an instruction and the instruction step leave alone: everything but the program's state and the run state
(R113, R119); and the run state itself, unless a termination is raised. -/

namespace Sys2Proof.Machine

/-- Every field is the same but registers, pc, data memory and the four of R27: the fields an instruction can write. -/
def OnlyProgramAndRunState (s t : State) : Prop :=
  t = { s with regs := t.regs, pc := t.pc, mem := t.mem, run := t.run, cause := t.cause,
               exitStatus := t.exitStatus, diag := t.diag }

/-- The increment stays within the frame. -/
theorem OnlyProgramAndRunState.advancePc {s t : State} (h : OnlyProgramAndRunState s t) :
    OnlyProgramAndRunState s t.advancePc :=
  (congrArg State.advancePc h).trans rfl

theorem OnlyProgramAndRunState.devices {s t : State} (h : OnlyProgramAndRunState s t) :
    t.kbdStopped = s.kbdStopped ∧ t.keyIn = s.keyIn ∧ t.keyq = s.keyq ∧ t.tickPending = s.tickPending := by
  unfold OnlyProgramAndRunState at h
  rw [h]
  exact ⟨rfl, rfl, rfl, rfl⟩

theorem exec_frame {i : Instr} {s t : State} (h : exec i s = .next t) : OnlyProgramAndRunState s t := by
  rcases exec_cases h with ⟨_, _, _, rfl⟩ | ⟨_, _, _, rfl⟩ | rfl | ⟨_, _, _, _, _, _, _, rfl⟩ | ⟨_, _, rfl⟩ <;> rfl

theorem instructionStep_frame {s t : State} (hr : s.run = .running) (h : instructionStep s = .next t) :
    OnlyProgramAndRunState s t := by
  rcases instructionStep_cases hr h with ⟨_, rfl⟩ | ⟨_, u, _, hu, ⟨_, rfl⟩ | ⟨_, _, _, rfl⟩⟩
  · rfl
  · exact (exec_frame hu).advancePc
  · exact exec_frame hu

/-! ### The run state -/

/-- The four fields of R27 are the same. -/
structure SameRunState (s t : State) : Prop where
  run : t.run = s.run
  cause : t.cause = s.cause
  exitStatus : t.exitStatus = s.exitStatus
  diag : t.diag = s.diag

/-- An instruction leaves the run state, or raises (R113). -/
theorem exec_sameRunState_or_raise {i : Instr} {s t : State} (h : exec i s = .next t) :
    SameRunState s t ∨ ∃ x, t = s.raise x := by
  rcases exec_cases h with ⟨_, _, _, rfl⟩ | ⟨_, _, _, rfl⟩ | rfl | ⟨_, _, _, _, _, _, _, rfl⟩ | ⟨x, _, rfl⟩
  · exact .inl ⟨rfl, rfl, rfl, rfl⟩
  · exact .inl ⟨rfl, rfl, rfl, rfl⟩
  · exact .inl ⟨rfl, rfl, rfl, rfl⟩
  · exact .inl ⟨rfl, rfl, rfl, rfl⟩
  · exact .inr ⟨x, rfl⟩

theorem instructionStep_sameRunState_or_raise {s t : State} (hr : s.run = .running)
    (h : instructionStep s = .next t) : SameRunState s t ∨ ∃ x, t = s.raise x := by
  rcases instructionStep_cases hr h with ⟨_, rfl⟩ | ⟨_, u, _, hu, ⟨hrun, rfl⟩ | ⟨x, _, rfl, rfl⟩⟩
  · exact .inr ⟨_, rfl⟩
  · rcases exec_sameRunState_or_raise hu with hsame | ⟨x, rfl⟩
    · exact .inl ⟨hsame.run, hsame.cause, hsame.exitStatus, hsame.diag⟩
    · cases hrun
  · exact .inr ⟨x, rfl⟩

/-- The core leaves the run state, or raises from the state it was in, a consumed key apart (R130). -/
theorem coreCycle_sameRunState_or_raise {s t : State} (hr : s.run = .running) (h : coreCycle s = .next t) :
    SameRunState s t ∨ ∃ x q, t = State.raise { s with keyq := q } x := by
  rcases coreCycle_cases h with ⟨k, rest, _, rfl⟩ | ⟨_, _, rfl⟩ | ⟨_, _, hi⟩
  · rcases consumeKey_cases k rest s with ⟨_, hk⟩ | ⟨_, hk⟩ <;> rw [hk]
    · exact .inr ⟨.quit, rest, rfl⟩
    · exact .inl ⟨rfl, rfl, rfl, rfl⟩
  · exact .inl ⟨rfl, rfl, rfl, rfl⟩
  · rcases instructionStep_sameRunState_or_raise hr hi with hsame | ⟨x, rfl⟩
    · exact .inl hsame
    · exact .inr ⟨x, s.keyq, rfl⟩

theorem sameRunState_workerStep (s : State) : SameRunState s (workerStep s) := by
  rcases workerStep_cases s with hw | ⟨_, _, _, hw⟩ | ⟨_, _, _, _, _, hw⟩ <;> rw [hw] <;> exact ⟨rfl, rfl, rfl, rfl⟩

/-- Every step leaves the run state; or it raises, with nothing done but the turn taken and perhaps a key consumed. -/
theorem step_sameRunState_or_raise {s t : State} (h : step s = .next t) :
    SameRunState s t ∨ (s.run = .running ∧ ∃ x q, t = State.raise { s.takeTurn with keyq := q } x) := by
  rcases step_cases h with ⟨_, rfl⟩ | ⟨_, _, rfl⟩ | ⟨_, _, rfl⟩ | ⟨hr, _, hc⟩
  · exact .inl ⟨rfl, rfl, rfl, rfl⟩
  · have hw := sameRunState_workerStep s.takeTurn
    exact .inl ⟨hw.run, hw.cause, hw.exitStatus, hw.diag⟩
  · exact .inl ⟨rfl, rfl, rfl, rfl⟩
  · rcases coreCycle_sameRunState_or_raise (s := s.takeTurn) hr hc with hsame | hraise
    · exact .inl ⟨hsame.run, hsame.cause, hsame.exitStatus, hsame.diag⟩
    · exact .inr ⟨hr, hraise⟩

/-- Settles O46: the step that ends a run is a `raise` on the state it found, and `raise` writes the run state alone. -/
theorem terminationsArePrecise : Obligations.TerminationsArePrecise := by
  intro s t hr h ht
  rcases step_sameRunState_or_raise h with hsame | ⟨_, x, q, rfl⟩
  · rw [hsame.run, hr] at ht
    cases ht
  · exact ⟨⟨rfl, rfl, rfl⟩, rfl, rfl⟩

end Sys2Proof.Machine
end

section
/-! PROOFS. The run state is always that of one termination, or of none (R27, R114 to R119, R149). -/

namespace Sys2Proof.Machine

/-- Consistency speaks of the run state alone. -/
theorem RunStateConsistent.of_same {s t : State} (hs : RunStateConsistent s) (h : SameRunState s t) :
    RunStateConsistent t := by
  unfold RunStateConsistent
  rw [h.run, h.cause, h.exitStatus, h.diag]
  exact hs

theorem RunStateConsistent.diag_of_running {s : State} (hs : RunStateConsistent s) (hr : s.run = .running) :
    s.diag = [] := by
  unfold RunStateConsistent at hs
  rw [hr] at hs
  exact hs.2.2

/-- R119: `raise` on a state without diagnostics makes the run state that of the termination raised. -/
theorem runStateConsistent_raise {s : State} (hd : s.diag = []) (x : Termination) : RunStateConsistent (s.raise x) :=
  ⟨x, rfl, rfl, by rw [State.raise_diag, hd, List.nil_append]⟩

theorem step_runStateConsistent {s t : State} (hs : RunStateConsistent s) (h : step s = .next t) :
    RunStateConsistent t := by
  rcases step_sameRunState_or_raise h with hsame | ⟨hr, x, q, rfl⟩
  · exact hs.of_same hsame
  · exact runStateConsistent_raise (hs.diag_of_running hr) x

/-- A consistent run state has no cause, no status and no diagnostic, or those of one termination. -/
theorem RunStateConsistent.none_or_termination {s : State} (hs : RunStateConsistent s) :
    (s.cause = .none ∧ s.exitStatus = none ∧ s.diag = []) ∨
    ∃ x : Termination, s.cause = x.cause ∧ s.exitStatus = some x.status ∧ s.diag = x.diagnostics := by
  unfold RunStateConsistent at hs
  split at hs
  · exact .inl hs
  · exact .inr hs

/-- What cause, status and diagnostics of a consistent run state say of each other (R114 to R118). -/
theorem RunStateConsistent.cause_status_diag {s : State} (hs : RunStateConsistent s) :
    (s.cause = .halt ∨ s.cause = .quit → s.exitStatus = some 0 ∧ s.diag = []) ∧
    (s.cause = .illegalWrite → s.exitStatus = some 1 ∧ s.diag = [.illegalWrite]) ∧
    (s.diag ≠ [] → s.cause = .illegalWrite) ∧
    (s.exitStatus = some 1 → s.cause = .illegalWrite ∨
      (s.cause = .fetchOutOfRange ∧ Config.fetchFaultStatus = 1) ∨
      (s.cause = .indexOutOfRange ∧ Config.indexFaultStatus = 1)) := by
  rcases hs.none_or_termination with ⟨hcause, hstatus, hdiag⟩ | ⟨x, hcause, hstatus, hdiag⟩
  · simp [hcause, hstatus, hdiag]
  · rw [hcause, hstatus, hdiag]
    cases x with
    | halt => simp [Termination.cause, Termination.status, Termination.diagnostics, Config.statusHalt]
    | quit => simp [Termination.cause, Termination.status, Termination.diagnostics, Config.statusQuit]
    | illegalWrite => simp [Termination.cause, Termination.status, Termination.diagnostics, Config.statusIllegalWrite]
    | fetchOutOfRange => simp [Termination.cause, Termination.status, Termination.diagnostics]
    | indexOutOfRange => simp [Termination.cause, Termination.status, Termination.diagnostics]

/-- Settles O49: a step leaves the run state or raises once, from a state without diagnostics; the rest is read off the
five terminations. -/
theorem runStateStaysConsistent : Obligations.RunStateStaysConsistent := by
  intro s t hs h
  have ht : RunStateConsistent t := step_runStateConsistent hs h
  exact ⟨ht, ht.cause_status_diag⟩

end Sys2Proof.Machine
end

section
/-! PROOFS. What a step does to the keyboard queue and to the worker's stop bit (R128 to R133), and which agent writes what
(R38). -/

namespace Sys2Proof.Machine

/-! ### The core -/

@[simp] theorem consumeKey_keyq (k : Byte) (rest : List Byte) (s : State) : (consumeKey k rest s).keyq = rest := by
  rcases consumeKey_cases k rest s with ⟨_, hk⟩ | ⟨_, hk⟩
  · rw [hk, State.raise_keyq]
  · rw [hk]

@[simp] theorem consumeKey_tickPending (k : Byte) (rest : List Byte) (s : State) :
    (consumeKey k rest s).tickPending = s.tickPending := by
  rcases consumeKey_cases k rest s with ⟨_, hk⟩ | ⟨_, hk⟩
  · rw [hk, State.raise_tickPending]
  · rw [hk]

@[simp] theorem consumeKey_kbdStopped (k : Byte) (rest : List Byte) (s : State) :
    (consumeKey k rest s).kbdStopped = s.kbdStopped := by
  rcases consumeKey_cases k rest s with ⟨_, hk⟩ | ⟨_, hk⟩
  · rw [hk, State.raise_kbdStopped]
  · rw [hk]

@[simp] theorem consumeKey_keyIn (k : Byte) (rest : List Byte) (s : State) :
    (consumeKey k rest s).keyIn = s.keyIn := by
  rcases consumeKey_cases k rest s with ⟨_, hk⟩ | ⟨_, hk⟩
  · rw [hk, State.raise_keyIn]
  · rw [hk]

/-- The core's part in the two event sources: it leaves the worker and the input alone, may take the head off the queue,
and may clear the tick. -/
structure CoreOwnsOnly (s t : State) : Prop where
  kbdStopped : t.kbdStopped = s.kbdStopped
  keyIn : t.keyIn = s.keyIn
  keyq : t.keyq = s.keyq ∨ ∃ k, s.keyq = k :: t.keyq
  tickPending : t.tickPending = s.tickPending ∨ t.tickPending = false

theorem coreCycle_owns {s t : State} (hr : s.run = .running) (h : coreCycle s = .next t) : CoreOwnsOnly s t := by
  rcases coreCycle_cases h with ⟨k, rest, hk, rfl⟩ | ⟨_, _, rfl⟩ | ⟨_, _, hi⟩
  · exact ⟨consumeKey_kbdStopped k rest s, consumeKey_keyIn k rest s, .inr ⟨k, by rw [hk, consumeKey_keyq]⟩,
      .inl (consumeKey_tickPending k rest s)⟩
  · exact ⟨rfl, rfl, .inl rfl, .inr rfl⟩
  · obtain ⟨hstopped, hin, hq, htick⟩ := (instructionStep_frame hr hi).devices
    exact ⟨hstopped, hin, .inl hq, .inl htick⟩

/-! ### The worker -/

/-- The worker writes the queue, its stop bit and the input it reads, and no other field. -/
theorem workerStep_frame (s : State) : workerStep s =
    { s with keyq := (workerStep s).keyq, kbdStopped := (workerStep s).kbdStopped, keyIn := (workerStep s).keyIn } := by
  rcases workerStep_cases s with hw | ⟨_, _, _, hw⟩ | ⟨_, _, _, _, _, hw⟩ <;> rw [hw]

/-- R128: the worker leaves the queue, or enqueues the byte it read. -/
theorem workerStep_keyq (s : State) : (workerStep s).keyq = s.keyq ∨
    ∃ b, s.keyIn = .byte b :: (workerStep s).keyIn ∧ (workerStep s).keyq = s.keyq ++ [b] := by
  rcases workerStep_cases s with hw | ⟨_, _, _, hw⟩ | ⟨_, _, b, _, hin, hw⟩ <;> rw [hw]
  · exact .inl rfl
  · exact .inl rfl
  · exact .inr ⟨b, hin, rfl⟩

/-- R35: the worker never takes its stop back. -/
theorem workerStep_kbdStopped (s : State) :
    (workerStep s).kbdStopped = s.kbdStopped ∨ (workerStep s).kbdStopped = true := by
  rcases workerStep_cases s with hw | ⟨_, _, _, hw⟩ | ⟨hs, _, b, _, _, hw⟩ <;> rw [hw]
  · exact .inl rfl
  · exact .inr rfl
  · rw [hs]
    exact (Bool.eq_false_or_eq_true (b == Config.quitCode)).symm

/-- Settles O44: on its own turn each agent's step is its own, and each of the three steps keeps to its frame. -/
theorem eachAgentWritesOnlyItsOwnState : Obligations.EachAgentWritesOnlyItsOwnState := by
  intro s t hr h
  refine ⟨?worker, ?timer, ?core⟩
  case worker =>
    intro ha
    obtain rfl : workerStep s.takeTurn = t := Host.Outcome.next.inj ((step_of_workersTurn hr ha).symm.trans h)
    exact ⟨workerStep_frame s.takeTurn, workerStep_keyq s.takeTurn, workerStep_kbdStopped s.takeTurn⟩
  case timer =>
    intro ha
    exact (Host.Outcome.next.inj ((step_of_timersTurn hr ha).symm.trans h)).symm
  case core =>
    intro ha
    have howns : CoreOwnsOnly s.takeTurn t := coreCycle_owns hr ((step_of_coresTurn hr ha).symm.trans h)
    exact ⟨howns.kbdStopped, howns.keyIn, howns.keyq, howns.tickPending⟩

end Sys2Proof.Machine
end

section
/-! PROOFS. The quit code is the last value of the queue, and the queue keeps within its capacity (R128, R129, R132). -/

namespace Sys2Proof.Machine

/-! ### The capacity -/

/-- R129: only a bounded capacity can leave a queue of `n + 1` values without room. -/
theorem queueHasRoom_succ_iff {n : Nat} :
    queueHasRoom (n + 1) = true ↔ ∀ extra, Config.keyqDepth = .bounded extra → n + 1 ≤ extra := by
  unfold queueHasRoom
  cases Config.keyqDepth with
  | unbounded => simp
  | bounded extra => simp

/-- A queue with room for one more value has room for one more when it is shorter. -/
theorem queueHasRoom_of_succ {n : Nat} (h : queueHasRoom (n + 1) = true) : queueHasRoom n = true := by
  cases n with
  | zero => rfl
  | succ n => exact queueHasRoom_succ_iff.mpr fun extra hd => Nat.le_of_succ_le (queueHasRoom_succ_iff.mp h extra hd)

/-! ### The quit code -/

/-- The part of the two invariants that reads the queue `q` and the worker's stop bit. -/
structure QueueInvariant (q : List Byte) (stopped : Bool) : Prop where
  quitLast : Config.quitCode ∉ q.dropLast
  quitStopped : Config.quitCode ∈ q → stopped = true
  capacity : ∀ n, q.length = n + 1 → queueHasRoom n = true

theorem queueInvariant_iff {s : State} :
    QueueInvariant s.keyq s.kbdStopped ↔ QuitCodeLast s ∧ QueueWithinCapacity s :=
  ⟨fun h => ⟨⟨h.quitLast, h.quitStopped⟩, h.capacity⟩, fun ⟨⟨h1, h2⟩, h3⟩ => ⟨h1, h2, h3⟩⟩

/-- Stopping the worker keeps the invariant. -/
theorem QueueInvariant.stop {q : List Byte} {stopped : Bool} (h : QueueInvariant q stopped) :
    QueueInvariant q true :=
  ⟨h.quitLast, fun _ => rfl, h.capacity⟩

/-- Consuming the head keeps the invariant: the rest is a suffix, and shorter. -/
theorem QueueInvariant.dequeue {k : Byte} {rest : List Byte} {stopped : Bool}
    (h : QueueInvariant (k :: rest) stopped) : QueueInvariant rest stopped where
  quitLast := by
    intro hmem
    refine h.quitLast ?_
    have hne : rest ≠ [] := by
      rintro rfl
      simp at hmem
    rw [List.dropLast_cons_of_ne_nil hne]
    exact List.mem_cons_of_mem k hmem
  quitStopped := fun hmem => h.quitStopped (List.mem_cons_of_mem k hmem)
  capacity := by
    intro n hn
    exact queueHasRoom_of_succ (h.capacity (n + 1) (by rw [List.length_cons, hn]))

/-- Enqueueing keeps the invariant: an unstopped worker has enqueued no quit code yet, and stops when it does. -/
theorem QueueInvariant.enqueue {q : List Byte} (h : QueueInvariant q false) (hroom : queueHasRoom q.length = true)
    (b : Byte) : QueueInvariant (q ++ [b]) (b == Config.quitCode) := by
  have hnone : Config.quitCode ∉ q := fun hmem => Bool.false_ne_true (h.quitStopped hmem)
  refine ⟨?_, ?_, ?_⟩
  · rw [List.dropLast_concat]
    exact hnone
  · intro hmem
    rcases List.mem_append.mp hmem with hmem | hmem
    · exact absurd hmem hnone
    · exact beq_iff_eq.mpr (List.mem_singleton.mp hmem).symm
  · intro n hn
    have hlen : q.length = n := by simpa using hn
    rw [← hlen]
    exact hroom

/-! ### The agents -/

theorem workerStep_queueInvariant {s : State} (h : QueueInvariant s.keyq s.kbdStopped) :
    QueueInvariant (workerStep s).keyq (workerStep s).kbdStopped := by
  rcases workerStep_cases s with hw | ⟨_, _, _, hw⟩ | ⟨hs, hroom, b, _, _, hw⟩ <;> rw [hw]
  · exact h
  · exact h.stop
  · rw [hs] at h
    exact h.enqueue hroom b

theorem CoreOwnsOnly.queueInvariant {s t : State} (howns : CoreOwnsOnly s t)
    (h : QueueInvariant s.keyq s.kbdStopped) : QueueInvariant t.keyq t.kbdStopped := by
  rw [howns.kbdStopped]
  rcases howns.keyq with hq | ⟨k, hq⟩
  · rwa [hq]
  · rw [hq] at h
    exact h.dequeue

theorem step_queueInvariant {s t : State} (h : QueueInvariant s.keyq s.kbdStopped) (hstep : step s = .next t) :
    QueueInvariant t.keyq t.kbdStopped := by
  rcases step_cases hstep with ⟨_, rfl⟩ | ⟨_, _, rfl⟩ | ⟨_, _, rfl⟩ | ⟨hr, _, hc⟩
  · exact h
  · exact workerStep_queueInvariant (s := s.takeTurn) h
  · exact h
  · exact (coreCycle_owns (s := s.takeTurn) hr hc).queueInvariant h

/-- Settles O50: the worker enqueues and the core dequeues, and both keep the invariant of the queue. -/
theorem quitCodeStaysLastInTheQueue : Obligations.QuitCodeStaysLastInTheQueue := by
  intro s t hquit hcap h
  exact queueInvariant_iff.mp (step_queueInvariant (queueInvariant_iff.mpr ⟨hquit, hcap⟩) h)

end Sys2Proof.Machine
end

section
/-! PROOFS. The encoder and the decoder are inverse to each other (R64, R65, R69, R72). -/

namespace Sys2Proof

open Machine (imm8Of_nibbles decodeExtended_halt)

/-! ### Rows of the extended group that carry a byte (R70, R72) -/

theorem decodeExtended_nop {f : Fields} (h : f.arg0.toNat = 6) : decodeExtended f = .nop (imm8Of f) := by
  simp only [decodeExtended, h]

theorem decodeExtended_unmappedExt7 {f : Fields} (h : f.arg0.toNat = 7) :
    decodeExtended f = .unmappedExt7 (imm8Of f) := by
  simp only [decodeExtended, h]

/-- R72: the sub-opcodes 8 to 15 are one row. -/
theorem decodeExtended_unmappedExt8F {f : Fields} (h : 8 ≤ f.arg0.toNat) :
    decodeExtended f = .unmappedExt8F f.arg0 (imm8Of f) := by
  unfold decodeExtended
  split
  case h_9 => rfl
  all_goals omega

/-! ### From an instruction to its word and back -/

theorem decode_packR3 (o : BitVec 4) (a b c : RegIx) : decode (packR3 o a b c) =
    decodeFields { opcode := o, arg0 := fieldOf a, arg1 := fieldOf b, arg2 := fieldOf c } :=
  decode_joinFields _

theorem decode_packX2 (sub : BitVec 4) (b c : RegIx) : decode (packX2 sub b c) =
    decodeExtended { opcode := 0#4, arg0 := sub, arg1 := fieldOf b, arg2 := fieldOf c } :=
  decode_joinFields _

theorem decode_packX1 (sub : BitVec 4) (b : RegIx) (ignored : BitVec 4) : decode (packX1 sub b ignored) =
    decodeExtended { opcode := 0#4, arg0 := sub, arg1 := fieldOf b, arg2 := ignored } :=
  decode_joinFields _

/-- A word of form RI is decoded with its byte in one piece again (R66). -/
theorem decode_packRI {o : BitVec 4} {i : RegIx → BitVec 8 → Instr}
    (h : ∀ {f : Fields}, f.opcode.toNat = o.toNat → decodeFields f = i (regOf f.arg0) (imm8Of f))
    (a : RegIx) (imm8 : BitVec 8) : decode (packRI o a imm8) = i a imm8 := by
  rw [packRI, decode_joinFields, h rfl, imm8Of_nibbles, regOf_fieldOf]

/-- A word of form N is decoded with its ignored byte in one piece again (R67). -/
theorem decode_packN {sub : BitVec 4} {i : BitVec 4 → BitVec 8 → Instr}
    (h : ∀ {f : Fields}, f.arg0.toNat = sub.toNat → decodeExtended f = i f.arg0 (imm8Of f)) (ignored : BitVec 8) :
    decode (packN sub ignored) = i sub ignored := by
  calc decode (packN sub ignored)
      = decodeExtended { opcode := 0#4, arg0 := sub, arg1 := hiNibble ignored, arg2 := loNibble ignored } :=
        decode_joinFields _
    _ = i sub ignored := by rw [h rfl, imm8Of_nibbles]

/-- The twelve bits below the opcode, cut into three fields and joined again. -/
theorem extractLsb'_append_append (g : BitVec 12) :
    g.extractLsb' 8 4 ++ g.extractLsb' 4 4 ++ g.extractLsb' 0 4 = g := by
  apply BitVec.eq_of_toNat_eq
  have hg := g.isLt
  simp only [toNat_append_eq, BitVec.extractLsb'_toNat, Nat.shiftRight_eq_div_pow]
  omega

theorem decode_encode_unmappedF (g : BitVec 12) : decode (encode (.unmappedF g)) = .unmappedF g :=
  (decode_joinFields _).trans (congrArg Instr.unmappedF (extractLsb'_append_append g))

/-- Settles O4: the word of an instruction is its fields joined, form by form, and the decoder selects the same row. -/
theorem decodeInvertsEncode : Obligations.DecodeInvertsEncode := by
  intro i hwf
  cases i with
  | halt g => exact decode_packN (i := fun _ g => .halt g) decodeExtended_halt g
  | cpy rd rs => exact decode_packX2 0x1#4 rd rs
  | not rd rs => exact decode_packX2 0x2#4 rd rs
  | lsl rn g => exact decode_packX1 0x3#4 rn g
  | lsr rn g => exact decode_packX1 0x4#4 rn g
  | jmp rs ro => exact decode_packX2 0x5#4 rs ro
  | nop g => exact decode_packN (i := fun _ g => .nop g) decodeExtended_nop g
  | add rd ra rb => exact decode_packR3 0x1#4 rd ra rb
  | sub rd ra rb => exact decode_packR3 0x2#4 rd ra rb
  | addc rd b => exact decode_packRI decodeFields_addc rd b
  | subc rd b => exact decode_packRI decodeFields_subc rd b
  | cmp rf ra rb => exact decode_packR3 0x5#4 rf ra rb
  | jlt rf rs ro => exact decode_packR3 0x6#4 rf rs ro
  | jgt rf rs ro => exact decode_packR3 0x7#4 rf rs ro
  | jeq rf rs ro => exact decode_packR3 0x8#4 rf rs ro
  | ldr rd rs ro => exact decode_packR3 0x9#4 rd rs ro
  | str rv rs ro => exact decode_packR3 0xA#4 rv rs ro
  | lrc rd b => exact decode_packRI decodeFields_lrc rd b
  | and rd ra rb => exact decode_packR3 0xC#4 rd ra rb
  | or rd ra rb => exact decode_packR3 0xD#4 rd ra rb
  | xor rd ra rb => exact decode_packR3 0xE#4 rd ra rb
  | unmappedExt7 g => exact decode_packN (i := fun _ g => .unmappedExt7 g) decodeExtended_unmappedExt7 g
  | unmappedExt8F a g =>
    have ha : 8 ≤ a.toNat := of_decide_eq_true hwf
    exact decode_packN (i := .unmappedExt8F) (fun h => decodeExtended_unmappedExt8F (h ▸ ha)) g
  | unmappedF g => exact decode_encode_unmappedF g

/-! ### From a word to its instruction and back -/

theorem packR3_fields {f : Fields} {o : BitVec 4} (h : f.opcode.toNat = o.toNat) :
    packR3 o (regOf f.arg0) (regOf f.arg1) (regOf f.arg2) = joinFields f := by
  obtain rfl : f.opcode = o := BitVec.eq_of_toNat_eq h
  rfl

theorem packRI_fields {f : Fields} {o : BitVec 4} (h : f.opcode.toNat = o.toNat) :
    packRI o (regOf f.arg0) (imm8Of f) = joinFields f := by
  obtain rfl : f.opcode = o := BitVec.eq_of_toNat_eq h
  rw [packRI, imm8Of, hiNibble_append, loNibble_append, fieldOf_regOf]

theorem packX2_fields {f : Fields} {sub : BitVec 4} (ho : f.opcode.toNat = 0) (h : f.arg0.toNat = sub.toNat) :
    packX2 sub (regOf f.arg1) (regOf f.arg2) = joinFields f := by
  obtain rfl : f.arg0 = sub := BitVec.eq_of_toNat_eq h
  have hop : f.opcode = 0#4 := BitVec.eq_of_toNat_eq ho
  rw [packX2, ← hop, fieldOf_regOf, fieldOf_regOf]

theorem packX1_fields {f : Fields} {sub : BitVec 4} (ho : f.opcode.toNat = 0) (h : f.arg0.toNat = sub.toNat) :
    packX1 sub (regOf f.arg1) f.arg2 = joinFields f :=
  packX2_fields ho h

theorem packN_fields {f : Fields} {sub : BitVec 4} (ho : f.opcode.toNat = 0) (h : f.arg0.toNat = sub.toNat) :
    packN sub (imm8Of f) = joinFields f := by
  rw [packN, imm8Of, hiNibble_append, loNibble_append]
  exact packX2_fields ho h

/-- Three fields joined, and cut apart again. -/
theorem extractLsb'_of_append_append (a b c : BitVec 4) : (a ++ b ++ c).extractLsb' 8 4 = a ∧
    (a ++ b ++ c).extractLsb' 4 4 = b ∧ (a ++ b ++ c).extractLsb' 0 4 = c := by
  have ha := a.isLt
  have hb := b.isLt
  have hc := c.isLt
  refine ⟨BitVec.eq_of_toNat_eq ?_, BitVec.eq_of_toNat_eq ?_, BitVec.eq_of_toNat_eq ?_⟩ <;>
  · simp only [toNat_append_eq, BitVec.extractLsb'_toNat, Nat.shiftRight_eq_div_pow]
    omega

theorem encode_unmappedF_fields {f : Fields} (h : f.opcode.toNat = 15) :
    encode (.unmappedF (f.arg0 ++ f.arg1 ++ f.arg2)) = joinFields f := by
  have hop : f.opcode = 0xF#4 := BitVec.eq_of_toNat_eq h
  obtain ⟨h0, h1, h2⟩ := extractLsb'_of_append_append f.arg0 f.arg1 f.arg2
  rw [encode, h0, h1, h2, ← hop]

theorem encode_decodeExtended {f : Fields} (ho : f.opcode.toNat = 0) : encode (decodeExtended f) = joinFields f := by
  unfold decodeExtended
  split
  case h_1 h => exact packN_fields ho h
  case h_2 h => exact packX2_fields ho h
  case h_3 h => exact packX2_fields ho h
  case h_4 h => exact packX1_fields ho h
  case h_5 h => exact packX1_fields ho h
  case h_6 h => exact packX2_fields ho h
  case h_7 h => exact packN_fields ho h
  case h_8 h => exact packN_fields ho h
  case h_9 => exact packN_fields ho rfl

theorem encode_decodeFields (f : Fields) : encode (decodeFields f) = joinFields f := by
  unfold decodeFields
  split
  case h_1 h => exact encode_decodeExtended h
  case h_4 h => exact packRI_fields h
  case h_5 h => exact packRI_fields h
  case h_12 h => exact packRI_fields h
  case h_16 =>
    simp only [imp_false] at *
    have hlt := f.opcode.isLt
    exact encode_unmappedF_fields (by omega)
  all_goals next h => exact packR3_fields h

theorem wf_decodeExtended (f : Fields) : (decodeExtended f).wf = true := by
  unfold decodeExtended
  split
  case h_9 =>
    simp only [imp_false] at *
    exact decide_eq_true (by omega)
  all_goals rfl

theorem wf_decodeFields (f : Fields) : (decodeFields f).wf = true := by
  unfold decodeFields
  split
  case h_1 => exact wf_decodeExtended f
  all_goals rfl

/-- Settles O5: the row a word selects keeps each of its four fields, so joining them gives the word back. -/
theorem encodeInvertsDecode : Obligations.EncodeInvertsDecode := by
  intro w
  refine ⟨wf_decodeFields (splitWord w), ?_⟩
  calc encode (decode w) = joinFields (splitWord w) := encode_decodeFields (splitWord w)
    _ = w := joinFields_splitWord w

end Sys2Proof
end

section
/-! PROOFS. The rows of the opcode table (R69, R72): they are disjoint, and each word is in the row of its instruction. -/

namespace Sys2Proof

/-- R69: the word is the row's instruction. -/
abbrev OpcodeRow.Matches (row : OpcodeRow) (w : Word) : Prop := w &&& row.mask = row.pattern

/-! ### The table as data -/

/-- Two patterns that agree where both masks look are of one row. -/
theorem opcodeTable_disjoint : ∀ row ∈ opcodeTable, ∀ other ∈ opcodeTable,
    row.pattern &&& other.mask = other.pattern &&& row.mask → row = other := by
  decide

theorem opcodeTable_mnemonic_inj : ∀ row ∈ opcodeTable, ∀ other ∈ opcodeTable,
    row.mnemonic = other.mnemonic → row = other := by
  decide

/-- No word is in two rows. -/
theorem OpcodeRow.Matches.unique {row other : OpcodeRow} {w : Word} (hrow : row ∈ opcodeTable)
    (hother : other ∈ opcodeTable) (h : row.Matches w) (h' : other.Matches w) : row = other := by
  refine opcodeTable_disjoint row hrow other hother ?_
  calc row.pattern &&& other.mask = (w &&& row.mask) &&& other.mask := by rw [h]
    _ = (w &&& other.mask) &&& row.mask := by rw [BitVec.and_assoc, BitVec.and_comm row.mask, BitVec.and_assoc]
    _ = other.pattern &&& row.mask := by rw [h']

/-! ### The row of a word -/

/-- The word of every well-formed instruction matches the row that bears its name. -/
theorem encodedInItsRow (i : Instr) : Laws.EncodedInItsRow.Statement i := by
  cases i with
  | halt g => exact Laws.EncodedInItsRow.halt g
  | cpy rd rs => exact Laws.EncodedInItsRow.cpy rd rs
  | not rd rs => exact Laws.EncodedInItsRow.not rd rs
  | lsl rn g => exact Laws.EncodedInItsRow.lsl rn g
  | lsr rn g => exact Laws.EncodedInItsRow.lsr rn g
  | jmp rs ro => exact Laws.EncodedInItsRow.jmp rs ro
  | nop g => exact Laws.EncodedInItsRow.nop g
  | add rd ra rb => exact Laws.EncodedInItsRow.add rd ra rb
  | sub rd ra rb => exact Laws.EncodedInItsRow.sub rd ra rb
  | addc rd b => exact Laws.EncodedInItsRow.addc rd b
  | subc rd b => exact Laws.EncodedInItsRow.subc rd b
  | cmp rf ra rb => exact Laws.EncodedInItsRow.cmp rf ra rb
  | jlt rf rs ro => exact Laws.EncodedInItsRow.jlt rf rs ro
  | jgt rf rs ro => exact Laws.EncodedInItsRow.jgt rf rs ro
  | jeq rf rs ro => exact Laws.EncodedInItsRow.jeq rf rs ro
  | ldr rd rs ro => exact Laws.EncodedInItsRow.ldr rd rs ro
  | str rv rs ro => exact Laws.EncodedInItsRow.str rv rs ro
  | lrc rd b => exact Laws.EncodedInItsRow.lrc rd b
  | and rd ra rb => exact Laws.EncodedInItsRow.and rd ra rb
  | or rd ra rb => exact Laws.EncodedInItsRow.or rd ra rb
  | xor rd ra rb => exact Laws.EncodedInItsRow.xor rd ra rb
  | unmappedExt7 g => exact Laws.EncodedInItsRow.unmappedExt7 g
  | unmappedExt8F a g => exact Laws.EncodedInItsRow.unmappedExt8F a g
  | unmappedF g => exact Laws.EncodedInItsRow.unmappedF g

/-- Every word matches the row that bears the name of its instruction: it is the word of that instruction. -/
theorem exists_row_of_word (w : Word) :
    ∃ row ∈ opcodeTable, row.mnemonic = (decode w).mnemonic ∧ row.Matches w := by
  obtain ⟨hwf, henc⟩ := encodeInvertsDecode w
  obtain ⟨row, hrow, hname, hmatch⟩ := encodedInItsRow (decode w) hwf
  rw [henc] at hmatch
  exact ⟨row, hrow, hname, hmatch⟩

/-- R65, R69: a word matches a row exactly when it decodes to an instruction of that name. -/
theorem matches_iff_mnemonic {row : OpcodeRow} (hrow : row ∈ opcodeTable) (w : Word) :
    row.Matches w ↔ (decode w).mnemonic = row.mnemonic := by
  obtain ⟨own, hown, hname, hmatch⟩ := exists_row_of_word w
  constructor
  · intro h
    rw [h.unique hrow hown hmatch, hname]
  · intro h
    rwa [opcodeTable_mnemonic_inj row hrow own hown (h.symm.trans hname.symm)]

/-- Settles O6: a word matches its instruction's row, and as rows are disjoint and names distinct, no other. -/
theorem everyWordSelectsExactlyItsRow : Obligations.EveryWordSelectsExactlyItsRow := by
  intro w
  obtain ⟨own, hown, _, hmatch⟩ := exists_row_of_word w
  exact ⟨fun row hrow => matches_iff_mnemonic hrow w, own, hown, hmatch,
    fun other hother h => OpcodeRow.Matches.unique hother hown h hmatch⟩

/-- Settles O3: 24 fixed words, each through its four fields. -/
theorem specWordsDecode : Obligations.SpecWordsDecode := by
  unfold Obligations.SpecWordsDecode
  decide

end Sys2Proof
end

section
/-! PROOFS. The bits that a row ignores reach no meaning (R71). -/

namespace Sys2Proof.Machine

/-! ### Rows without register operands -/

/-- R71: an instruction without register operands does what its row says, HALT or nothing. -/
theorem exec_of_no_operands {i : Instr}
    (h : i.mnemonic ∈ ["HALT", "NOP", "UNMAPPED_EXT_7", "UNMAPPED_EXT_8_F", "UNMAPPED_F"]) (s : State) :
    exec i s = .next (if i.mnemonic = "HALT" then s.raise .halt else s) := by
  cases i with
  | halt => rfl
  | nop => rfl
  | unmappedExt7 => rfl
  | unmappedExt8F => rfl
  | unmappedF => rfl
  | _ => simp [Instr.mnemonic] at h

/-! ### LSL and LSR -/

/-- LSL and LSR read the field `arg1` of their word and no other (R83, R84). -/
theorem exec_of_shift {i : Instr} (h : i.mnemonic ∈ ["LSL", "LSR"]) (s : State) :
    exec i s = if i.mnemonic = "LSL" then execLsl (regOf (splitWord (encode i)).arg1) s
      else execLsr (regOf (splitWord (encode i)).arg1) s := by
  cases i with
  | lsl rn g =>
    rw [encode, packX1, splitWord_joinFields]
    rfl
  | lsr rn g =>
    rw [encode, packX1, splitWord_joinFields]
    rfl
  | _ => simp [Instr.mnemonic] at h

/-- Words that agree outside `arg2` agree in `arg1`. -/
theorem arg1_eq_of_and_eq {v w : Word} (h : v &&& 0xFFF0#16 = w &&& 0xFFF0#16) :
    (splitWord v).arg1 = (splitWord w).arg1 := by
  have hmask : ∀ u : Word, (splitWord (u &&& 0xFFF0#16)).arg1 = (splitWord u).arg1 := by
    intro u
    rw [splitWord_and]
    exact BitVec.and_allOnes
  rw [← hmask v, h, hmask w]

/-- Settles O7: what these rows execute depends on their name, and for the two shifts on `arg1` too. -/
theorem ignoredBitsChangeNothing : Obligations.IgnoredBitsChangeNothing := by
  intro v w s hname
  refine ⟨?noOperands, ?shifts⟩
  case noOperands =>
    intro hv
    have hw := hname ▸ hv
    rw [exec_of_no_operands hv, exec_of_no_operands hw, hname]
  case shifts =>
    intro hv heq
    have hw := hname ▸ hv
    rw [exec_of_shift hv, exec_of_shift hw, (encodeInvertsDecode v).2, (encodeInvertsDecode w).2, hname,
      arg1_eq_of_and_eq heq]

end Sys2Proof.Machine
end

section
/-! PROOFS. The three unmapped blocks (R72, R110 to R112): their words as numbers and as rows. -/

namespace Sys2Proof.Machine

/-- A mask of all bits from bit `k` on cuts the lower part off the number. -/
theorem toNat_and_upperBits (w : Word) (k : Nat) :
    (w &&& (BitVec.allOnes 16 <<< k)).toNat = w.toNat / 2 ^ k * 2 ^ k := by
  have hw : w.toNat / 2 ^ k * 2 ^ k < 2 ^ 16 := Nat.lt_of_le_of_lt (Nat.div_mul_le_self _ _) w.isLt
  rw [← BitVec.shiftLeft_ushiftRight, BitVec.toNat_shiftLeft, BitVec.toNat_ushiftRight, Nat.shiftLeft_eq,
    Nat.shiftRight_eq_div_pow, Nat.mod_eq_of_lt hw]

/-- R72: the three blocks by match and mask are two ranges of numbers. -/
theorem unmapped_iff_range (w : Word) :
    Claims.unmapped w ↔ (0x0700 ≤ w.toNat ∧ w.toNat ≤ 0x0FFF) ∨ 0xF000 ≤ w.toNat := by
  have h8 : (w &&& 0xFF00#16).toNat = w.toNat / 2 ^ 8 * 2 ^ 8 := toNat_and_upperBits w 8
  have h11 : (w &&& 0xF800#16).toNat = w.toNat / 2 ^ 11 * 2 ^ 11 := toNat_and_upperBits w 11
  have h12 : (w &&& 0xF000#16).toNat = w.toNat / 2 ^ 12 * 2 ^ 12 := toNat_and_upperBits w 12
  have hw := w.isLt
  simp only [Claims.unmapped, ← BitVec.toNat_inj, h8, h11, h12, BitVec.toNat_ofNat]
  omega

/-- R72: the three blocks are the last three rows of the table. -/
theorem unmapped_iff_mnemonic (w : Word) :
    Claims.unmapped w ↔ (decode w).mnemonic ∈ ["UNMAPPED_EXT_7", "UNMAPPED_EXT_8_F", "UNMAPPED_F"] := by
  have hrow : ∀ row ∈ opcodeTable, (w &&& row.mask = row.pattern ↔ (decode w).mnemonic = row.mnemonic) :=
    fun row hrow => matches_iff_mnemonic hrow w
  have h7 := hrow ⟨"UNMAPPED_EXT_7", 0x0700#16, 0xFF00#16⟩ (by simp [opcodeTable])
  have h8F := hrow ⟨"UNMAPPED_EXT_8_F", 0x0800#16, 0xF800#16⟩ (by simp [opcodeTable])
  have hF := hrow ⟨"UNMAPPED_F", 0xF000#16, 0xF000#16⟩ (by simp [opcodeTable])
  simp only [Claims.unmapped, h7, h8F, hF, List.mem_cons, List.not_mem_nil, or_false]

/-- R112: an unmapped word executes as a no-op. -/
theorem exec_of_unmapped {w : Word} (h : Claims.unmapped w) (s : State) : exec (decode w) s = .next s := by
  have hname := (unmapped_iff_mnemonic w).mp h
  have hhalt : (decode w).mnemonic ≠ "HALT" := by
    intro heq
    rw [heq] at hname
    exact absurd hname (by decide)
  rw [exec_of_no_operands (List.mem_cons_of_mem _ (List.mem_cons_of_mem _ hname)), if_neg hhalt]

end Sys2Proof.Machine
end

section
/-! PROOFS. The step of a ready machine (R19, R22, R125): it executes the word it fetches and then advances the pc, takes a
jump or ends the run; and there is always a step (R127). -/

namespace Sys2Proof.Machine

open Host (Outcome)

/-! ### The step as execute and increment -/

/-- R127: with no key and no tick waiting, the core's cycle is an instruction step. -/
theorem step_of_ready {s : State} (h : s.ready) : step s = instructionStep s.takeTurn := by
  obtain ⟨⟨hr, ha⟩, hk, ht⟩ := h
  exact (step_of_coresTurn hr ha).trans (coreCycle_of_quiet (s := s.takeTurn) hk ht)

theorem step_of_ready_of_fetches {s : State} {w : Word} (h : s.ready) (hw : s.fetches w) :
    step s = afterExecute (exec (decode w) s.takeTurn) := by
  obtain ⟨⟨hr, ha⟩, hk, ht⟩ := h
  exact step_of_fetch hr ha hk ht hw

theorem afterExecute_of_running {u : State} (h : u.run = .running) : afterExecute (.next u) = .next u.advancePc := by
  simp only [afterExecute, h]

theorem afterExecute_of_terminated {u : State} (h : u.run = .terminated) : afterExecute (.next u) = .next u := by
  simp only [afterExecute, h]

/-- Settles O30: the increment follows the instruction unless that ended the run. -/
theorem stepRunsTheDecodedInstruction : Obligations.StepRunsTheDecodedInstruction := by
  intro s u w hready hw hexec
  rw [step_of_ready_of_fetches hready hw, hexec]
  exact ⟨afterExecute_of_running, afterExecute_of_terminated⟩

/-- Settles O31: the range test of R22 comes before the fetch, and `raise` changes the run state alone. -/
theorem fetchOutsideTheCodeEndsTheRun : Obligations.FetchOutsideTheCodeEndsTheRun := by
  intro s hready hpc
  have hnone : codeRead s.takeTurn.code s.takeTurn.pc = none := List.getElem?_eq_none hpc
  have hstep : step s = .next (s.takeTurn.raise .fetchOutOfRange) := by
    rw [step_of_ready hready, instructionStep, hnone]
  have hfaulted : (s.takeTurn.raise .fetchOutOfRange).faulted := ⟨rfl, Option.some_ne_none _⟩
  exact ⟨_, hstep, endedBy_raise _ .fetchOutOfRange, List.append_nil _, hfaulted,
    fun hwell => hwell.not_faulted hfaulted⟩

/-! ### Instructions that do nothing -/

/-- A step whose instruction has no effect advances the pc and changes nothing else (R19). -/
theorem step_of_no_effect {s : State} {w : Word} (hready : s.ready) (hw : s.fetches w)
    (hexec : exec (decode w) s.takeTurn = .next s.takeTurn) :
    ∃ t, step s = .next t ∧ t.pc.toNat = (s.pc.toNat + 1) % 65536 ∧ OnlyPc s.takeTurn t := by
  have hstep : step s = .next s.takeTurn.advancePc := by
    rw [step_of_ready_of_fetches hready hw, hexec]
    exact afterExecute_of_running hready.1.1
  exact ⟨_, hstep, BitVec.toNat_add s.pc 1#16, rfl⟩

theorem decode_wordN_nop (ignored : BitVec 8) : decode (Claims.wordN 6 ignored) = .nop ignored := by
  have h := decode_wordN 6#4 ignored
  rwa [decodeExtended_nop rfl, imm8Of_nibbles] at h

theorem exec_nop (ignored : BitVec 8) (s : State) : exec (.nop ignored) s = .next s := rfl

/-- Settles O14: NOP answers the state it found, so a step of it is the increment alone. -/
theorem nopOnlyAdvancesThePc : Obligations.NopOnlyAdvancesThePc := by
  intro ignored s
  have hdecode := decode_wordN_nop ignored
  refine ⟨hdecode, exec_nop ignored s, fun hready hw => step_of_no_effect hready hw ?_⟩
  rw [hdecode]
  exact exec_nop ignored s.takeTurn

/-- Settles O29: the masks of the three blocks cut out two ranges, the decoder follows the rows, and their meanings answer
the state they found. -/
theorem unmappedWordsAreExactlyTheseNoOps : Obligations.UnmappedWordsAreExactlyTheseNoOps :=
  ⟨unmapped_iff_range, unmapped_iff_mnemonic, fun _ => ⟨fun _ => rfl, fun _ _ => rfl, fun _ => rfl⟩,
    fun _ s hunmapped hready hw => step_of_no_effect hready hw (exec_of_unmapped hunmapped s.takeTurn)⟩

/-! ### Jumps -/

/-- R93: a jump that is taken is JMP with its two fields. -/
theorem exec_of_takesJump {i : Instr} {s : State} {rs ro : RegIx} (hj : i.jumpsThrough = some (rs, ro))
    (ht : Claims.takesJump i s) : exec i s = .next (s.jumpTo rs ro) := by
  cases i with
  | jmp _ _ => cases hj; rfl
  | jlt rf _ _ => cases hj; exact (exec_jlt rf rs ro s).trans (if_pos ht)
  | jgt rf _ _ => cases hj; exact (exec_jgt rf rs ro s).trans (if_pos ht)
  | jeq rf _ _ => cases hj; exact (exec_jeq rf rs ro s).trans (if_pos ht)
  | _ => cases hj

/-- R96 to R98: a jump that is not taken has no effect. -/
theorem exec_of_not_takesJump {i : Instr} {s : State} {rs ro : RegIx} (hj : i.jumpsThrough = some (rs, ro))
    (ht : ¬ Claims.takesJump i s) : exec i s = .next s := by
  cases i with
  | jmp _ _ => exact absurd trivial ht
  | jlt rf rs ro => exact (exec_jlt rf rs ro s).trans (if_neg ht)
  | jgt rf rs ro => exact (exec_jgt rf rs ro s).trans (if_neg ht)
  | jeq rf rs ro => exact (exec_jeq rf rs ro s).trans (if_neg ht)
  | _ => cases hj

/-- R20: what jumps is a jump. -/
theorem exists_jumpsThrough_of_takesJump {i : Instr} {s : State} (ht : Claims.takesJump i s) :
    ∃ rs ro, i.jumpsThrough = some (rs, ro) := by
  cases i with
  | jmp rs ro => exact ⟨rs, ro, rfl⟩
  | jlt _ rs ro => exact ⟨rs, ro, rfl⟩
  | jgt _ rs ro => exact ⟨rs, ro, rfl⟩
  | jeq _ rs ro => exact ⟨rs, ro, rfl⟩
  | _ => exact ht.elim

/-- R20: an instruction that does not jump leaves the pc. -/
theorem exec_pc_of_not_takesJump {i : Instr} {s t : State} (h : exec i s = .next t) (ht : ¬ Claims.takesJump i s) :
    t.pc = s.pc := by
  rcases exec_cases h with ⟨_, _, _, rfl⟩ | ⟨_, _, hj, _⟩ | rfl | ⟨_, _, _, _, _, _, _, rfl⟩ | ⟨_, _, rfl⟩
  · rfl
  · obtain rfl : s = t := Outcome.next.inj ((exec_of_not_takesJump hj ht).symm.trans h)
    rfl
  · rfl
  · rfl
  · rfl

theorem takesJump_takeTurn {i : Instr} {s : State} : Claims.takesJump i s.takeTurn ↔ Claims.takesJump i s := by
  cases i <;> exact Iff.rfl

/-- Settles O32: a taken jump writes its target minus one, and the increment makes it the target. -/
theorem takenJumpLandsOnItsTarget : Obligations.TakenJumpLandsOnItsTarget := by
  intro s w rs ro hready hw hj ht
  have hstep : step s = .next (s.takeTurn.jumpTo rs ro).advancePc := by
    rw [step_of_ready_of_fetches hready hw, exec_of_takesJump hj (takesJump_takeTurn.mpr ht)]
    exact afterExecute_of_running hready.1.1
  exact ⟨_, hstep, toNat_jumpTarget_succ (s.readReg rs) (s.readReg ro), rfl⟩

/-- Settles O33: the instruction raises, or the increment follows; then it has jumped or has left the pc. -/
theorem instructionStepsAdvanceJumpOrEnd : Obligations.InstructionStepsAdvanceJumpOrEnd := by
  intro s t w hready hw h
  have hinstr : instructionStep s.takeTurn = .next t := (step_of_ready hready).symm.trans h
  rcases instructionStep_cases (s := s.takeTurn) hready.1.1 hinstr with
    ⟨_, rfl⟩ | ⟨w', u, hw', hu, ⟨hrun, rfl⟩ | ⟨x, _, rfl, rfl⟩⟩
  · exact .inl ⟨rfl, rfl⟩
  · obtain rfl : w' = w := Option.some.inj (hw'.symm.trans hw)
    by_cases ht : Claims.takesJump (decode w') s
    · obtain ⟨rs, ro, hj⟩ := exists_jumpsThrough_of_takesJump ht
      obtain rfl : s.takeTurn.jumpTo rs ro = u :=
        Outcome.next.inj ((exec_of_takesJump hj (takesJump_takeTurn.mpr ht)).symm.trans hu)
      exact .inr (.inr ⟨hrun, ht, rs, ro, hj, toNat_jumpTarget_succ (s.readReg rs) (s.readReg ro)⟩)
    · have hpc : u.pc = s.pc := exec_pc_of_not_takesJump (s := s.takeTurn) hu (mt takesJump_takeTurn.mp ht)
      have hnext : u.advancePc.pc.toNat = (s.pc.toNat + 1) % 65536 := by
        rw [u.advancePc_pc, hpc]
        exact BitVec.toNat_add s.pc 1#16
      exact .inr (.inl ⟨hrun, ht, hnext⟩)
  · exact .inl ⟨rfl, rfl⟩

/-! ### There is always a step -/

theorem coreCycle_answers (s : State) : ∃ t, coreCycle s = .next t := by
  unfold coreCycle
  split
  · exact ⟨_, rfl⟩
  · split
    · exact ⟨_, rfl⟩
    · exact instructionStep_answers s

theorem step_answers_of_running {s : State} (hr : s.run = .running) : ∃ t, step s = .next t := by
  cases ha : s.nextAgent with
  | core => rw [step_of_coresTurn hr ha]; exact coreCycle_answers s.takeTurn
  | worker => exact ⟨_, step_of_workersTurn hr ha⟩
  | timer => exact ⟨_, step_of_timersTurn hr ha⟩

/-- Settles O37: each agent's step answers a next state, and the core's quiet cycle is an instruction step. -/
theorem runningMachineNeverWaits : Obligations.RunningMachineNeverWaits :=
  ⟨fun _ => step_answers_of_running, fun _ => step_of_ready⟩

end Sys2Proof.Machine
end

section
/-! PROOFS. Keys, ticks and ends of a run: what each agent's step is in each case (R125 to R136, R149). -/

namespace Sys2Proof.Machine

open Host (Outcome)

/-! ### Consuming a key -/

theorem eq_quitCode_iff {k : Byte} : k = Config.quitCode ↔ k.toNat = 113 :=
  BitVec.toNat_inj.symm

theorem consumeKey_of_quitCode {k : Byte} (h : k.toNat = 113) (rest : List Byte) (s : State) :
    consumeKey k rest s = State.raise { s with keyq := rest } .quit :=
  if_pos (eq_quitCode_iff.mpr h)

theorem consumeKey_of_other {k : Byte} (h : k.toNat ≠ 113) (rest : List Byte) (s : State) :
    consumeKey k rest s = { s with keyq := rest } :=
  if_neg (mt eq_quitCode_iff.mp h)

/-- Settles O38: consuming the quit code raises Quit, and consuming another value takes it off the queue. -/
theorem onlyTheQuitCodeQuits : Obligations.OnlyTheQuitCodeQuits := by
  intro s k rest ⟨hr, ha⟩ hk
  refine ⟨_, step_of_key hr ha hk, ?_⟩
  by_cases hquit : k.toNat = 113
  · rw [consumeKey_of_quitCode hquit]
    exact ⟨rfl, ⟨rfl, rfl, rfl⟩, List.append_nil s.diag, fun _ => ⟨rfl, rfl, rfl⟩, fun hother => absurd hquit hother⟩
  · rw [consumeKey_of_other hquit]
    exact ⟨rfl, ⟨rfl, rfl, rfl⟩, rfl, fun hq => absurd hq hquit, fun _ => hr⟩

/-- Settles O39: it is the cycle of a waiting key that is not the quit code. -/
theorem otherKeysOnlyLeaveTheQueue : Obligations.OtherKeysOnlyLeaveTheQueue := by
  intro s k rest ⟨hr, ha⟩ hk hother
  rw [step_of_key hr ha hk, consumeKey_of_other hother]
  rfl

/-! ### Ticks -/

/-- R126, R135: with no key waiting a pending tick is serviced. -/
theorem step_of_tick {s : State} (hr : s.run = .running) (ha : s.nextAgent = .core) (hk : s.keyq = [])
    (ht : s.tickPending = true) : step s = .next (serviceTick s.takeTurn) := by
  rw [step_of_coresTurn hr ha]
  simp only [coreCycle, State.takeTurn_keyq, State.takeTurn_tickPending, hk, ht, if_true]

/-- Settles O40: it is the cycle of a pending tick. -/
theorem tickIsServicedInACycleOfItsOwn : Obligations.TickIsServicedInACycleOfItsOwn := by
  intro s ⟨hr, ha⟩ hk ht
  exact step_of_tick hr ha hk ht

/-- A run of `k + 1` steps is a step and a run of `k` steps. -/
theorem run_succ_of_step {s t : State} (h : step s = .next t) (k : Nat) : core.run (k + 1) s = core.run k t := by
  have h' : core.step s = .next t := h
  simp only [Host.Core.run, h']

theorem nextAgent_of_schedule {s : State} {a : Agent} {rest : List Agent} (h : s.schedule = a :: rest) :
    s.nextAgent = a := by
  rw [State.nextAgent, h, List.headD_cons]

/-- R134, R135: two firings and a service, each in a turn of its own. -/
theorem serviceTick_timerStep_timerStep (s : State) :
    serviceTick (timerStep (timerStep s.takeTurn).takeTurn).takeTurn =
      { s with tickPending := false, displayRefreshes := s.displayRefreshes + 1,
               schedule := s.schedule.tail.tail.tail } := by
  simp only [serviceTick_eq, timerStep_eq, State.takeTurn]

/-- Settles O43: the second firing finds the bit set, and the one service clears it. -/
theorem ticksCoalesce : Obligations.TicksCoalesce := by
  refine ⟨fun s hr ha => step_of_timersTurn hr ha, fun s rest hr hk hsched => ?_⟩
  have hfirst : s.nextAgent = .timer := nextAgent_of_schedule hsched
  have hsecond : (timerStep s.takeTurn).nextAgent = .timer := nextAgent_of_schedule (congrArg List.tail hsched)
  have hthird : (timerStep (timerStep s.takeTurn).takeTurn).nextAgent = .core :=
    nextAgent_of_schedule (congrArg (fun l => l.tail.tail) hsched)
  have hrest : s.schedule.tail.tail.tail = rest := congrArg (fun l => l.tail.tail.tail) hsched
  calc core.run 3 s
      = core.run 2 (timerStep s.takeTurn) := run_succ_of_step (step_of_timersTurn hr hfirst) 2
    _ = core.run 1 (timerStep (timerStep s.takeTurn).takeTurn) :=
        run_succ_of_step (step_of_timersTurn (s := timerStep s.takeTurn) hr hsecond) 1
    _ = core.run 0 (serviceTick (timerStep (timerStep s.takeTurn).takeTurn).takeTurn) :=
        run_succ_of_step (step_of_tick (s := timerStep (timerStep s.takeTurn).takeTurn) hr hthird hk rfl) 0
    _ = .next { s with tickPending := false, displayRefreshes := s.displayRefreshes + 1, schedule := rest } := by
        rw [← hrest, serviceTick_timerStep_timerStep]
        rfl

/-! ### The worker's turn -/

theorem workerStep_of_stopped {s : State} (h : s.kbdStopped = true) : workerStep s = s :=
  if_pos h

theorem workerStep_of_no_input {s : State} (h : s.keyIn = []) : workerStep s = s := by
  simp only [workerStep, h, ite_self]

theorem workerStep_of_eof {s : State} {rest : List KeyInput} (hs : s.kbdStopped = false) (h : s.keyIn = .eof :: rest) :
    workerStep s = { s with keyIn := rest, kbdStopped := true } := by
  simp only [workerStep, hs, h, Bool.false_eq_true, if_false]

theorem workerStep_of_byte {s : State} {b : Byte} {rest : List KeyInput} (hs : s.kbdStopped = false)
    (h : s.keyIn = .byte b :: rest) : workerStep s =
      if queueHasRoom s.keyq.length then
        { s with keyIn := rest, keyq := s.keyq ++ [b], kbdStopped := b == Config.quitCode }
      else s := by
  simp only [workerStep, hs, h, Bool.false_eq_true, if_false]

/-- R132: the worker's test for the quit code is a test of the number. -/
theorem beq_quitCode (b : Byte) : (b == Config.quitCode) = decide (b.toNat = 113) := by
  rw [Bool.eq_iff_iff, beq_iff_eq, eq_quitCode_iff, decide_eq_true_iff]

/-- Settles O41: with room the byte is appended, and a stopped worker's turn passes. -/
theorem workerForwardsBytesAndStopsAfterQuit : Obligations.WorkerForwardsBytesAndStopsAfterQuit := by
  refine ⟨fun s b rest hr ha hs hin hroom => ?_, fun s hr ha hs => ?_⟩
  · rw [step_of_workersTurn hr ha, workerStep_of_byte (s := s.takeTurn) hs hin, State.takeTurn_keyq, if_pos hroom,
      beq_quitCode]
    rfl
  · rw [step_of_workersTurn hr ha, workerStep_of_stopped (s := s.takeTurn) hs]
    rfl

/-- Settles O42: each of the three inputs is one case of the worker's step. -/
theorem workerWaitsOrMeetsTheEndOfInput : Obligations.WorkerWaitsOrMeetsTheEndOfInput := by
  intro s hr ha hs
  rw [step_of_workersTurn hr ha]
  refine ⟨fun hin => ?noInput, fun b rest hin hroom => ?noRoom, fun rest hin => ?eof⟩
  case noInput =>
    rw [workerStep_of_no_input (s := s.takeTurn) hin]
    rfl
  case noRoom =>
    rw [workerStep_of_byte (s := s.takeTurn) hs hin, State.takeTurn_keyq, hroom]
    rfl
  case eof =>
    rw [workerStep_of_eof (s := s.takeTurn) hs hin]
    rfl

/-! ### After the end -/

theorem step_of_terminated {s : State} (hr : s.run = .terminated) : step s = afterEnd s := by
  simp only [step, hr]

theorem afterEnd_of_no_fault {s : State} (h : s.cause.fault = none) : afterEnd s = .next s := by
  simp only [afterEnd, h]

theorem afterEnd_of_fault {s : State} {r : Fault} (h : s.cause.fault = some r) : afterEnd s = .fault r := by
  simp only [afterEnd, h]

/-- Settles O45: after the end a step answers by the cause alone. -/
theorem terminationIsFinal : Obligations.TerminationIsFinal := by
  intro s hr
  refine ⟨fun t h => ?same, ?_⟩
  case same =>
    rcases step_cases h with ⟨_, ht⟩ | ⟨hr', _⟩ | ⟨hr', _⟩ | ⟨hr', _⟩
    · exact ht
    all_goals
      rw [hr] at hr'
      cases hr'
  rw [step_of_terminated hr]
  refine ⟨?_, fun h => afterEnd_of_fault (by rw [h]; rfl), fun h => afterEnd_of_fault (by rw [h]; rfl),
    fun h => afterEnd_of_fault (by rw [h]; rfl)⟩
  rintro (h | h)
  · exact afterEnd_of_no_fault (by rw [h]; rfl)
  · exact afterEnd_of_no_fault (by rw [h]; rfl)

end Sys2Proof.Machine
end

section
/-! PROOFS. LDR and STR (`43_load_store.md`, R44, R45, R101 to R103): one equation per outcome, and from them the loads, the
stores, the policy fault, IllegalWrite and the round trip. -/

namespace Sys2Proof.Machine

/-! ### The cell of two register values -/

/-- R44: the low 8 bits of a value are the value modulo 256. -/
theorem idx8_eq_ofNat (v : Word) : idx8 v = BitVec.ofNat 8 (v.toNat % 256) := by
  apply BitVec.eq_of_toNat_eq
  rw [toNat_idx8, BitVec.toNat_ofNat]
  omega

theorem cellOf_eq (seg off : Word) : Claims.cellOf seg off = { seg := idx8 seg, off := idx8 off } := by
  rw [Claims.cellOf, idx8_eq_ofNat, idx8_eq_ofNat]

theorem cellAddress_of_truncate {p : Config.IndexPolicy} (hp : p = .truncate) (seg off : Word) :
    cellAddress p seg off = some (Claims.cellOf seg off) := by
  rw [hp, cellAddress_truncate, cellOf_eq]

/-- R45: with both values in range the policy does not matter. -/
theorem cellAddress_of_lt {p : Config.IndexPolicy} {seg off : Word} (hseg : seg.toNat < 256) (hoff : off.toNat < 256) :
    cellAddress p seg off = some (Claims.cellOf seg off) := by
  cases h : cellAddress p seg off with
  | none =>
    obtain ⟨_, hge⟩ := cellAddress_eq_none.mp h
    omega
  | some a =>
    obtain ⟨rfl, _⟩ := cellAddress_eq_some h
    rw [cellOf_eq]

/-! ### The outcomes of LDR and STR -/

section
variable {r rs ro : RegIx} {s : State} {a : CellAddr}

theorem exec_ldr_of_cell (h : cellAddress s.indexPolicy (s.readReg rs) (s.readReg ro) = some a) :
    exec (.ldr r rs ro) s = .next (s.writeReg r (s.readCell a)) := by
  simp only [exec, execLdr, h]

theorem exec_ldr_of_no_cell (h : cellAddress s.indexPolicy (s.readReg rs) (s.readReg ro) = none) :
    exec (.ldr r rs ro) s = .next (s.raise .indexOutOfRange) := by
  simp only [exec, execLdr, h]

theorem exec_str_of_readOnly (hseg : 128 ≤ (s.readReg rs).toNat) :
    exec (.str r rs ro) s = .next (s.raise .illegalWrite) :=
  if_pos (readOnlySegment_eq_true.mpr hseg)

theorem exec_str_of_cell (hseg : (s.readReg rs).toNat < 128)
    (h : cellAddress s.indexPolicy (s.readReg rs) (s.readReg ro) = some a) :
    exec (.str r rs ro) s = .next (s.writeCell a (s.readReg r)) := by
  simp only [exec, execStr, readOnlySegment_eq_false.mpr hseg, Bool.false_eq_true, if_false, h]

theorem exec_str_of_no_cell (hseg : (s.readReg rs).toNat < 128)
    (h : cellAddress s.indexPolicy (s.readReg rs) (s.readReg ro) = none) :
    exec (.str r rs ro) s = .next (s.raise .indexOutOfRange) := by
  simp only [exec, execStr, readOnlySegment_eq_false.mpr hseg, Bool.false_eq_true, if_false, h]

end

/-- What an instruction answers whose meaning is one store, in a canonical memory. -/
theorem exec_answers_of_writeCell {i : Instr} {s : State} {a : CellAddr} {v : Word} (hs : MemoryCanonical s)
    (h : exec i s = .next (s.writeCell a v)) : ∃ t, exec i s = .next t ∧ t.readCell a = v ∧ OnlyCell a s t :=
  ⟨s.writeCell a v, h, Memory.read_write_same hs a v, rfl, fun _ hb => Memory.read_write_other hb s.mem v⟩

/-- What an instruction answers that raises INDEX_OUT_OF_RANGE: no diagnostic (R45). -/
theorem exec_answers_of_indexFault {i : Instr} {s : State} (h : exec i s = .next (s.raise .indexOutOfRange)) :
    ∃ t, exec i s = .next t ∧ Claims.endedBy .indexOutOfRange Config.indexFaultStatus s t ∧ t.diag = s.diag :=
  ⟨_, h, endedBy_raise s .indexOutOfRange, List.append_nil s.diag⟩

/-! ### The default policy -/

/-- Settles O22: under the default policy every pair of values names a cell. -/
theorem ldrLoadsTheTruncatedCell : Obligations.LdrLoadsTheTruncatedCell := by
  intro rd rs ro s
  exact ⟨decode_wordR3 9#4 rd rs ro,
    fun hp => exec_answers_of_writeReg (exec_ldr_of_cell (cellAddress_of_truncate hp _ _))⟩

/-- Settles O23: a segment value below 128 passes the check, and the store is to the cell named. -/
theorem strStoresOneWritableCell : Obligations.StrStoresOneWritableCell := by
  intro rv rs ro s
  exact ⟨decode_wordR3 10#4 rv rs ro,
    fun hs hp hseg => exec_answers_of_writeCell hs (exec_str_of_cell hseg (cellAddress_of_truncate hp _ _))⟩

/-- Settles O27: the cell holds the value stored, and the load's two registers name the same cell. -/
theorem loadAfterStoreGivesTheValue : Obligations.LoadAfterStoreGivesTheValue := by
  intro rv rs ro rd ps po s t u hs hps hpu hseg hstore hkept heqs heqo
  obtain rfl : s.writeCell (Claims.cellOf (s.readReg rs) (s.readReg ro)) (s.readReg rv) = t :=
    Host.Outcome.next.inj ((exec_str_of_cell hseg (cellAddress_of_truncate hps _ _)).symm.trans hstore)
  obtain ⟨v, hload, hvalue, _⟩ := exec_answers_of_writeReg (r := rd)
    (exec_ldr_of_cell (cellAddress_of_truncate hpu (u.readReg ps) (u.readReg po)))
  have hcell : Claims.cellOf (u.readReg ps) (u.readReg po) = Claims.cellOf (s.readReg rs) (s.readReg ro) := by
    rw [Claims.cellOf, heqs, heqo, Claims.cellOf]
  refine ⟨v, hload, ?_⟩
  rw [hvalue, hcell, hkept]
  exact Memory.read_write_same hs _ _

/-! ### The policy fault -/

/-- Settles O24: under the policy `fault` a value of 256 or more names no cell, and values in range name the cell that they
name under the default. -/
theorem indexFaultPolicyEndsTheRun : Obligations.IndexFaultPolicyEndsTheRun := by
  intro r rs ro s hp
  refine ⟨fun hge => ?ldrFault, fun hseg hoff => ?strFault, fun hseg hoff => ?ldr, fun hs hseg hoff => ?str⟩
  case ldrFault => exact exec_answers_of_indexFault (exec_ldr_of_no_cell (cellAddress_eq_none.mpr ⟨hp, hge⟩))
  case strFault =>
    exact exec_answers_of_indexFault (exec_str_of_no_cell hseg (cellAddress_eq_none.mpr ⟨hp, .inr hoff⟩))
  case ldr => exact exec_answers_of_writeReg (exec_ldr_of_cell (cellAddress_of_lt hseg hoff))
  case str =>
    have hlt : (s.readReg rs).toNat < 256 := Nat.lt_trans hseg (by decide)
    exact exec_answers_of_writeCell hs (exec_str_of_cell hseg (cellAddress_of_lt hlt hoff))

/-! ### IllegalWrite -/

/-- R115: what raises IllegalWrite is a STR that its check stops. -/
theorem str_of_raises_illegalWrite {i : Instr} {s : State} {x : Termination} (h : Raises i s x)
    (hx : x.cause = .illegalWrite) : ∃ rv rs ro, i = .str rv rs ro ∧ 128 ≤ (s.readReg rs).toNat := by
  rcases h with ⟨rfl, _⟩ | ⟨_, rv, rs, ro, hi, hcheck⟩ | ⟨rfl, _⟩
  · cases hx
  · exact ⟨rv, rs, ro, hi, readOnlySegment_eq_true.mp hcheck⟩
  · cases hx

/-- R119: an instruction that changes the cause raises. -/
theorem exec_cause {i : Instr} {s t : State} (h : exec i s = .next t) :
    t.cause = s.cause ∨ ∃ x, Raises i s x ∧ t.cause = x.cause := by
  rcases exec_cases h with ⟨_, _, _, rfl⟩ | ⟨_, _, _, rfl⟩ | rfl | ⟨_, _, _, _, _, _, _, rfl⟩ | ⟨x, hx, rfl⟩
  · exact .inl rfl
  · exact .inl rfl
  · exact .inl rfl
  · exact .inl rfl
  · exact .inr ⟨x, hx, rfl⟩

/-- Settles O25: STR's check comes first, and a cause is written by a raise alone. -/
theorem illegalWriteExactlyOnReadOnlySegments : Obligations.IllegalWriteExactlyOnReadOnlySegments := by
  refine ⟨fun rv rs ro s hseg => ⟨_, exec_str_of_readOnly hseg, endedBy_raise s .illegalWrite, rfl⟩,
    fun i s t h hs ht => ?_⟩
  rcases exec_cause h with hsame | ⟨x, hx, hcause⟩
  · exact absurd (hsame.symm.trans ht) hs
  · exact str_of_raises_illegalWrite hx (hcause.symm.trans ht)

end Sys2Proof.Machine
end

section
/-! PROOFS. The registers and cells that an instruction leaves, and that it sees the program state alone (R15, R28, R42). -/

namespace Sys2Proof.Machine

open Host (Outcome)

/-! ### Registers and cells -/

/-- Settles O34: of everything an instruction can do, the one register write alone reaches a register. -/
theorem onlyTheNamedRegisterIsWritten : Obligations.OnlyTheNamedRegisterIsWritten := by
  intro i s t h q hq
  rcases exec_cases h with ⟨r, v, hw, rfl⟩ | ⟨_, _, _, rfl⟩ | rfl | ⟨_, _, _, _, _, _, _, rfl⟩ | ⟨_, _, rfl⟩
  · have hne : q ≠ r := by
      rintro rfl
      exact hq hw
    exact s.readReg_writeReg_other hne v
  · rfl
  · rfl
  · rfl
  · rfl

/-- What an instruction does to data memory: nothing, or STR's one store (R42, R103). -/
theorem exec_mem_cases {i : Instr} {s t : State} (h : exec i s = .next t) :
    t.mem = s.mem ∨ ∃ rv rs ro a, i = .str rv rs ro ∧
      cellAddress s.indexPolicy (s.readReg rs) (s.readReg ro) = some a ∧ t = s.writeCell a (s.readReg rv) := by
  rcases exec_cases h with
    ⟨_, _, _, rfl⟩ | ⟨_, _, _, rfl⟩ | rfl | ⟨rv, rs, ro, a, hi, _, hcell, ht⟩ | ⟨_, _, rfl⟩
  · exact .inl rfl
  · exact .inl rfl
  · exact .inl rfl
  · exact .inr ⟨rv, rs, ro, a, hi, hcell, ht⟩
  · exact .inl rfl

/-- Settles O35: the one store is STR's, and it leaves every cell but the one its address function gives. -/
theorem onlyStrWritesAndOnlyItsCell : Obligations.OnlyStrWritesAndOnlyItsCell := by
  intro i s t h
  rcases exec_mem_cases h with hmem | ⟨rv, rs, ro, b, hi, hcell, rfl⟩
  · exact ⟨fun _ => hmem, fun _ _ _ _ a _ => congrArg (Memory.read · a) hmem⟩
  · refine ⟨fun hne => absurd hi (hne rv rs ro), fun rv' rs' ro' hi' a ha => ?_⟩
    obtain ⟨rfl, rfl, rfl⟩ := Instr.str.inj (hi.symm.trans hi')
    have hne : a ≠ b := by
      rintro rfl
      exact ha hcell
    exact Memory.read_write_other hne s.mem _

/-! ### What an instruction sees -/

/-- `u` with everything of `s` that an instruction reads: registers, data memory and the index policy. -/
def State.withProgramOf (u s : State) : State :=
  { u with regs := s.regs, mem := s.mem, indexPolicy := s.indexPolicy }

theorem withProgramOf_eq {s u : State} (h : SameProgramState s u) (hp : u.indexPolicy = s.indexPolicy) :
    u.withProgramOf s = u := by
  obtain ⟨hregs, hmem, _⟩ := h
  rw [State.withProgramOf, ← hregs, ← hmem, ← hp]

/-- One effect on two states: the same register, pc, cell or termination written, or nothing. -/
inductive SameEffect (s u : State) : State → State → Prop
  | register (r : RegIx) (v : Word) : SameEffect s u (s.writeReg r v) (u.writeReg r v)
  | pc (v : Word) : SameEffect s u (s.setPc v) (u.setPc v)
  | nothing : SameEffect s u s u
  | cell (a : CellAddr) (v : Word) : SameEffect s u (s.writeCell a v) (u.writeCell a v)
  | raise (x : Termination) : SameEffect s u (s.raise x) (u.raise x)

/-- An instruction answers in both states, with one effect. -/
def ExecutedAlike (i : Instr) (s u : State) : Prop :=
  ∃ s' u', exec i s = .next s' ∧ exec i u = .next u' ∧ SameEffect s u s' u'

/-- A conditional jump tests a register and writes the pc, or does nothing. -/
theorem executedAlike_of_ite_jmp {i : Instr} {rf rs ro : RegIx} {k : Nat}
    (h : ∀ t : State, exec i t = if (t.readReg rf).toNat = k then exec (.jmp rs ro) t else .next t) (s u : State) :
    ExecutedAlike i s (u.withProgramOf s) := by
  by_cases hk : (s.readReg rf).toNat = k
  · exact ⟨_, _, (h s).trans (if_pos hk), (h (u.withProgramOf s)).trans (if_pos hk), .pc _⟩
  · exact ⟨_, _, (h s).trans (if_neg hk), (h (u.withProgramOf s)).trans (if_neg hk), .nothing⟩

theorem executedAlike_ldr (rd rs ro : RegIx) (s u : State) : ExecutedAlike (.ldr rd rs ro) s (u.withProgramOf s) := by
  cases h : cellAddress s.indexPolicy (s.readReg rs) (s.readReg ro) with
  | some a => exact ⟨_, _, exec_ldr_of_cell h, exec_ldr_of_cell (s := u.withProgramOf s) h, .register rd _⟩
  | none => exact ⟨_, _, exec_ldr_of_no_cell h, exec_ldr_of_no_cell (s := u.withProgramOf s) h, .raise _⟩

theorem executedAlike_str (rv rs ro : RegIx) (s u : State) : ExecutedAlike (.str rv rs ro) s (u.withProgramOf s) := by
  rcases Nat.lt_or_ge (s.readReg rs).toNat 128 with hseg | hseg
  · cases h : cellAddress s.indexPolicy (s.readReg rs) (s.readReg ro) with
    | some a => exact ⟨_, _, exec_str_of_cell hseg h, exec_str_of_cell (s := u.withProgramOf s) hseg h, .cell a _⟩
    | none => exact ⟨_, _, exec_str_of_no_cell hseg h, exec_str_of_no_cell (s := u.withProgramOf s) hseg h, .raise _⟩
  · exact ⟨_, _, exec_str_of_readOnly hseg, exec_str_of_readOnly (s := u.withProgramOf s) hseg, .raise _⟩

/-- An instruction has one effect on all states that hold the same program state and policy (R28). -/
theorem executedAlike_withProgramOf (i : Instr) (s u : State) : ExecutedAlike i s (u.withProgramOf s) := by
  cases i with
  | halt g => exact ⟨_, _, rfl, rfl, .raise .halt⟩
  | cpy rd rs => exact ⟨_, _, rfl, rfl, .register rd _⟩
  | not rd rs => exact ⟨_, _, rfl, rfl, .register rd _⟩
  | lsl rn g => exact ⟨_, _, rfl, rfl, .register lslReg _⟩
  | lsr rn g => exact ⟨_, _, rfl, rfl, .register lsrReg _⟩
  | jmp rs ro => exact ⟨_, _, rfl, rfl, .pc _⟩
  | nop g => exact ⟨_, _, rfl, rfl, .nothing⟩
  | add rd ra rb => exact ⟨_, _, rfl, rfl, .register rd _⟩
  | sub rd ra rb => exact ⟨_, _, rfl, rfl, .register rd _⟩
  | addc rd b => exact ⟨_, _, rfl, rfl, .register rd _⟩
  | subc rd b => exact ⟨_, _, rfl, rfl, .register rd _⟩
  | cmp rf ra rb => exact ⟨_, _, rfl, rfl, .register rf _⟩
  | jlt rf rs ro => exact executedAlike_of_ite_jmp (exec_jlt rf rs ro) s u
  | jgt rf rs ro => exact executedAlike_of_ite_jmp (exec_jgt rf rs ro) s u
  | jeq rf rs ro => exact executedAlike_of_ite_jmp (exec_jeq rf rs ro) s u
  | ldr rd rs ro => exact executedAlike_ldr rd rs ro s u
  | str rv rs ro => exact executedAlike_str rv rs ro s u
  | lrc rd b => exact ⟨_, _, rfl, rfl, .register rd _⟩
  | and rd ra rb => exact ⟨_, _, rfl, rfl, .register rd _⟩
  | or rd ra rb => exact ⟨_, _, rfl, rfl, .register rd _⟩
  | xor rd ra rb => exact ⟨_, _, rfl, rfl, .register rd _⟩
  | unmappedExt7 g => exact ⟨_, _, rfl, rfl, .nothing⟩
  | unmappedExt8F a g => exact ⟨_, _, rfl, rfl, .nothing⟩
  | unmappedF g => exact ⟨_, _, rfl, rfl, .nothing⟩

theorem exec_sameEffect {i : Instr} {s u s' u' : State} (h : SameProgramState s u)
    (hp : u.indexPolicy = s.indexPolicy) (hs : exec i s = .next s') (hu : exec i u = .next u') :
    SameEffect s u s' u' := by
  have halike : ExecutedAlike i s (u.withProgramOf s) := executedAlike_withProgramOf i s u
  rw [withProgramOf_eq h hp] at halike
  obtain ⟨s₁, u₁, hs₁, hu₁, heffect⟩ := halike
  obtain rfl : s₁ = s' := Outcome.next.inj (hs₁.symm.trans hs)
  obtain rfl : u₁ = u' := Outcome.next.inj (hu₁.symm.trans hu)
  exact heffect

section
variable {s u s' u' : State}

/-- One effect keeps equal program states equal. -/
theorem SameEffect.sameProgramState (h : SameEffect s u s' u') (hsame : SameProgramState s u) :
    SameProgramState s' u' := by
  obtain ⟨hregs, hmem, hpc⟩ := hsame
  cases h with
  | register r v => exact ⟨congrArg (·.set r.val v) hregs, hmem, hpc⟩
  | pc v => exact ⟨hregs, hmem, rfl⟩
  | nothing => exact ⟨hregs, hmem, hpc⟩
  | cell a v => exact ⟨hregs, congrArg (·.write a v) hmem, hpc⟩
  | raise x => exact ⟨hregs, hmem, hpc⟩

/-- One effect leaves both runs going on, or ends both alike. -/
theorem SameEffect.run_cases (h : SameEffect s u s' u') :
    (s'.run = s.run ∧ u'.run = u.run) ∨
    (s'.run = .terminated ∧ u'.run = .terminated ∧ u'.cause = s'.cause ∧ u'.exitStatus = s'.exitStatus) := by
  cases h with
  | register r v => exact .inl ⟨rfl, rfl⟩
  | pc v => exact .inl ⟨rfl, rfl⟩
  | nothing => exact .inl ⟨rfl, rfl⟩
  | cell a v => exact .inl ⟨rfl, rfl⟩
  | raise x => exact .inr ⟨rfl, rfl, rfl, rfl⟩

end

/-- Settles O36: in the two states the instruction has one effect, and its frame is that of `exec`. -/
theorem instructionsSeeOnlyTheProgramState : Obligations.InstructionsSeeOnlyTheProgramState := by
  intro i s u s' u' hsame hp hrs hru hs hu
  have heffect : SameEffect s u s' u' := exec_sameEffect hsame hp hs hu
  have hframe : OnlyProgramAndRunState s s' := exec_frame hs
  refine ⟨heffect.sameProgramState hsame, ?_⟩
  rcases heffect.run_cases with ⟨hs', hu'⟩ | ⟨hs', hu', hends⟩
  · have hrunning : s'.run = .running := hs'.trans hrs
    exact ⟨(hu'.trans hru).trans hrunning.symm, fun hterm => (nomatch hrunning.symm.trans hterm), hframe⟩
  · exact ⟨hu'.trans hs'.symm, fun _ => hends, hframe⟩

end Sys2Proof.Machine
end

section
/-! PROOFS. LSL, LSR, JMP (`40_extended.md`, R83 to R85), and the conditional jumps after a CMP (R95 to R99). -/

namespace Sys2Proof.Machine

open Host (Outcome)

/-! ### Shifts -/

/-- The number of the pattern `0000 ssss bbbb xxxx` is the word the encoder packs from the same fields. -/
theorem wordX1_eq_packX1 (sub : BitVec 4) (b : RegIx) (ignored : BitVec 4) :
    Claims.wordX1 sub.toNat b ignored = packX1 sub b ignored := by
  have h := ofNat_eq_joinFields 0#4 sub (fieldOf b) ignored
  simpa [Claims.wordX1, packX1, fieldOf] using h

theorem decode_wordX1 (sub : BitVec 4) (b : RegIx) (ignored : BitVec 4) :
    decode (Claims.wordX1 sub.toNat b ignored) =
      decodeExtended { opcode := 0#4, arg0 := sub, arg1 := fieldOf b, arg2 := ignored } := by
  rw [wordX1_eq_packX1, decode_packX1]

theorem exec_lsl (rn : RegIx) (ignored : BitVec 4) (s : State) :
    exec (.lsl rn ignored) s = .next (s.writeReg 3 (shiftLeft (s.readReg 3) (s.readReg rn))) := rfl

theorem exec_lsr (rn : RegIx) (ignored : BitVec 4) (s : State) :
    exec (.lsr rn ignored) s = .next (s.writeReg 4 (shiftRight (s.readReg 4) (s.readReg rn))) := rfl

/-- R9: a count of 16 or more shifts everything out to the left. -/
theorem shiftLeft_of_ge {v n : Word} (h : 16 ≤ n.toNat) : shiftLeft v n = 0#16 :=
  BitVec.shiftLeft_eq_zero h

/-- R9: a count of 16 or more shifts everything out to the right. -/
theorem shiftRight_of_ge {v n : Word} (h : 16 ≤ n.toNat) : shiftRight v n = 0#16 :=
  BitVec.ushiftRight_eq_zero h

/-- Settles O11: LSL's one effect is the register write `x[3] <- x[3] << x[rn]`, with the count read before it. -/
theorem lslShiftsRegisterThree : Obligations.LslShiftsRegisterThree := by
  intro rn ignored s
  obtain ⟨t, hexec, hvalue, hframe⟩ := exec_answers_of_writeReg (exec_lsl rn ignored s)
  refine ⟨decode_wordX1 3#4 rn ignored, t, hexec, ?_, ?_, hframe⟩ <;> rw [hvalue]
  · exact toNat_shiftLeft _ _
  · exact shiftLeft_of_ge

/-- Settles O12: LSR's one effect is the register write `x[4] <- x[4] >> x[rn]`, with the count read before it. -/
theorem lsrShiftsRegisterFour : Obligations.LsrShiftsRegisterFour := by
  intro rn ignored s
  obtain ⟨t, hexec, hvalue, hframe⟩ := exec_answers_of_writeReg (exec_lsr rn ignored s)
  refine ⟨decode_wordX1 4#4 rn ignored, t, hexec, ?_, ?_, hframe⟩ <;> rw [hvalue]
  · exact toNat_shiftRight _ _
  · exact shiftRight_of_ge

/-! ### JMP -/

/-- R93: the target minus one, as an integer modulo 65536. -/
theorem toNat_jumpTarget (seg off : Word) :
    ((jumpTarget seg off).toNat : Int) = (seg.toNat * 256 + off.toNat - 1) % 65536 := by
  rw [jumpTarget, toNat_sub_eq_emod, BitVec.toNat_add, BitVec.toNat_mul, BitVec.toNat_ofNat, BitVec.toNat_ofNat]
  omega

/-- Settles O13: JMP's one effect is to write the target minus one to the pc. -/
theorem jmpWritesTheTargetMinusOne : Obligations.JmpWritesTheTargetMinusOne := by
  intro rs ro s
  exact ⟨decode_wordX2 5#4 rs ro, _, exec_jmp rs ro s, toNat_jumpTarget _ _, rfl⟩

/-! ### CMP, then a conditional jump -/

/-- R95, read backwards: the flag's number says which of the three outcomes it was. -/
theorem toNat_compareFlag_iff (a b : Word) :
    ((compareFlag a b).toNat = 0 ↔ a.toNat < b.toNat) ∧ ((compareFlag a b).toNat = 1 ↔ a.toNat = b.toNat) ∧
    ((compareFlag a b).toNat = 2 ↔ a.toNat > b.toNat) := by
  obtain ⟨hless, hequal, hgreater⟩ := toNat_compareFlag a b
  omega

/-- Settles O21: each jump tests for the number of its own flag, and no flag's number is 3 or more. -/
theorem cmpSelectsOneConditionalJump : Obligations.CmpSelectsOneConditionalJump := by
  refine ⟨fun rf ra rb rs ro s t h => ?afterCmp, fun rf rs ro s h => ?noFlag⟩
  case afterCmp =>
    obtain rfl : s.writeReg rf (compareFlag (s.readReg ra) (s.readReg rb)) = t := Outcome.next.inj h
    obtain ⟨hless, hequal, hgreater⟩ := toNat_compareFlag_iff (s.readReg ra) (s.readReg rb)
    simp only [exec_jlt, exec_jeq, exec_jgt, State.readReg_writeReg_same, hless, hequal, hgreater, and_self]
  case noFlag =>
    rw [exec_jlt, exec_jgt, exec_jeq, if_neg (by omega), if_neg (by omega), if_neg (by omega)]
    exact ⟨rfl, rfl, rfl⟩

end Sys2Proof.Machine
end

section
/-! PROOFS. Construction (R37, R48, R152): what it refuses, and that the state it gives meets every invariant. -/

namespace Sys2Proof.Machine

/-! ### Memory after construction -/

theorem reset_memoryCanonical : MemoryCanonical State.reset :=
  ⟨List.Pairwise.nil, fun _ hc => nomatch hc⟩

section
variable {p : Config.IndexPolicy} {code rom : List Word} {s : State}

/-- What a cell holds after construction, by its key. -/
theorem construct_readCell (h : construct p code rom = .next s) (a : CellAddr) :
    s.readCell a = if 32768 ≤ a.key then (rom[a.key - 32768]?).getD 0#16 else 0#16 := by
  obtain ⟨_, hrom, rfl⟩ := construct_cases h
  exact placeRom_read rom 0 reset_memoryCanonical ((Nat.zero_add _).trans_le hrom) a

/-- R37: the writable segments are 0. -/
theorem construct_readCell_writable (h : construct p code rom = .next s) {a : CellAddr} (ha : a.seg.toNat < 128) :
    s.readCell a = 0#16 := by
  have hoff := a.off.isLt
  have hkey : a.key < 32768 := by
    simp only [CellAddr.key, Config.segLen]
    omega
  rw [construct_readCell h, if_neg (Nat.not_le.mpr hkey)]

/-- R48: the ROM region holds the image, row by row. -/
theorem construct_readCell_rom (h : construct p code rom = .next s) {a : CellAddr} (ha : 128 ≤ a.seg.toNat) :
    s.readCell a = romWord rom a := by
  have hkey : 32768 ≤ a.key ∧ a.key - 32768 = (a.seg.toNat - 128) * 256 + a.off.toNat := by
    simp only [CellAddr.key, Config.segLen]
    omega
  rw [construct_readCell h, if_pos hkey.1, hkey.2]
  rfl

/-- R48: word `i` of the image stands in its own cell. -/
theorem construct_readCell_romCell (h : construct p code rom = .next s) {i : Nat} (hi : i < rom.length) :
    s.readCell (romCell i) = rom[i] := by
  obtain ⟨_, hrom, _⟩ := construct_cases h
  rw [construct_readCell h, romCell_key (Nat.lt_of_lt_of_le hi hrom), if_pos (Nat.le_add_right _ _),
    Nat.add_sub_cancel_left, List.getElem?_eq_getElem hi, Option.getD_some]

/-- Beyond the image the ROM region is 0. -/
theorem romWord_of_length_le {a : CellAddr} (h : rom.length ≤ (a.seg.toNat - 128) * 256 + a.off.toNat) :
    romWord rom a = 0#16 :=
  congrArg (·.getD 0#16) (List.getElem?_eq_none h)

/-! ### The constructed state -/

/-- Construction starts the machine in every invariant: the base of the inductions over steps. -/
theorem construct_wellFormed (h : construct p code rom = .next s) : WellFormedState s := by
  have hread : ∀ a : CellAddr, 128 ≤ a.seg.toNat → s.readCell a = romWord rom a := fun a => construct_readCell_rom h
  obtain ⟨hcode, hrom, rfl⟩ := construct_cases h
  exact
    { memory := placeRom_wf rom 0 reset_memoryCanonical
      runState := ⟨rfl, rfl, rfl⟩
      quitLast := ⟨fun hmem => (nomatch hmem), fun hmem => (nomatch hmem)⟩
      capacity := fun n hn => (nomatch hn)
      rom := hread
      inputs := ⟨hcode, hrom⟩ }

theorem construct_of_code_too_long (h : 65536 < code.length) : construct p code rom = .refused .codeTooLong :=
  if_pos h

theorem construct_of_rom_too_long (hcode : code.length ≤ 65536) (h : 32768 < rom.length) :
    construct p code rom = .refused .romTooLong :=
  (if_neg (Nat.not_lt.mpr hcode)).trans (if_pos h)

theorem construct_of_fits (hcode : code.length ≤ 65536) (hrom : rom.length ≤ 32768) : construct p code rom =
    .next { State.reset with
              code := code
              rom := rom
              mem := placeRom 0 rom State.reset.mem
              indexPolicy := p } :=
  (if_neg (Nat.not_lt.mpr hcode)).trans (if_neg (Nat.not_lt.mpr hrom))

end

/-- Settles O54: the reset state is the construction of the empty program. -/
theorem resetIsWellFormed : Obligations.ResetIsWellFormed :=
  construct_wellFormed (p := .truncate) (code := []) (rom := []) rfl

/-- Settles O55: the two length tests come first, and the state is the reset state with the image placed. -/
theorem constructionGivesTheResetState : Obligations.ConstructionGivesTheResetState := by
  intro p code rom
  refine ⟨construct_of_code_too_long, construct_of_rom_too_long, fun hcode hrom => ?_⟩
  have h := construct_of_fits (p := p) hcode hrom
  refine ⟨_, h, construct_wellFormed h, rfl, rfl, rfl, rfl, fun a ha => construct_readCell_writable h ha,
    fun i hi => construct_readCell_romCell h hi, fun a ha hlen => ?beyond, rfl, rfl, rfl, rfl, rfl, rfl⟩
  case beyond => rw [construct_readCell_rom h ha, romWord_of_length_le hlen]

end Sys2Proof.Machine
end

section
/-! PROOFS. The loader's file format (R158): the words of a payload, and the file written for a word sequence. -/

namespace Sys2Proof.Machine

/-! ### The payload -/

/-- R158: two bytes are one word. -/
theorem length_payloadWords : ∀ l : List Byte, (payloadWords l).length = l.length / 2
  | [] | [_] => by simp [payloadWords]
  | hi :: lo :: rest => by
    rw [payloadWords, List.length_cons, length_payloadWords rest, List.length_cons, List.length_cons]
    omega

/-- R158: word `k` is bytes `2 k` and `2 k + 1`, high byte first. -/
theorem payloadWords_getElem? : ∀ (l : List Byte) (k : Nat) {hi lo : Byte}, l[2 * k]? = some hi →
    l[2 * k + 1]? = some lo → (payloadWords l)[k]? = some (hi ++ lo)
  | [], _, _, _, hhi, _ => nomatch hhi
  | [_], _, _, _, _, hlo => by simp at hlo
  | _ :: _ :: _, 0, _, _, hhi, hlo => by
    cases hhi
    cases hlo
    rfl
  | _ :: _ :: rest, k + 1, _, _, hhi, hlo => by
    rw [payloadWords, List.getElem?_cons_succ]
    exact payloadWords_getElem? rest k hhi hlo

/-- A word is its two bytes. -/
theorem extractLsb'_append (w : Word) : w.extractLsb' 8 8 ++ w.extractLsb' 0 8 = w := by
  apply BitVec.eq_of_toNat_eq
  have hw := w.isLt
  simp only [toNat_append_eq, BitVec.extractLsb'_toNat, Nat.shiftRight_eq_div_pow]
  omega

/-- The bytes of a word sequence, high byte first (R158). -/
def wordBytes (ws : List Word) : List Byte := ws.flatMap fun w => [w.extractLsb' 8 8, w.extractLsb' 0 8]

theorem length_wordBytes (ws : List Word) : (wordBytes ws).length = 2 * ws.length := by
  induction ws with
  | nil => rfl
  | cons w rest ih =>
    have hcons : (wordBytes (w :: rest)).length = (wordBytes rest).length + 2 := rfl
    rw [hcons, ih, List.length_cons]
    omega

theorem payloadWords_wordBytes (ws : List Word) : payloadWords (wordBytes ws) = ws := by
  induction ws with
  | nil => rfl
  | cons w rest ih =>
    have hcons : payloadWords (wordBytes (w :: rest)) =
        (w.extractLsb' 8 8 ++ w.extractLsb' 0 8) :: payloadWords (wordBytes rest) := rfl
    rw [hcons, ih, extractLsb'_append]

/-! ### Loading -/

theorem loadFile_of_short {b0 b1 : Byte} {payload : List Byte}
    (h : payload.length < 2 * (b0.toNat + 256 * b1.toNat)) : loadFile (b0 :: b1 :: payload) = .loadError :=
  if_pos h

/-- A payload of exactly the declared length is loaded whole, whatever trailing bytes would do. -/
theorem loadFile_of_exact {b0 b1 : Byte} {payload : List Byte}
    (h : payload.length = 2 * (b0.toNat + 256 * b1.toNat)) :
    loadFile (b0 :: b1 :: payload) = .words (payloadWords payload) := by
  simp only [loadFile, ← h, Nat.lt_irrefl, decide_false, Bool.false_and, Bool.false_eq_true, if_false,
    List.take_length]

/-- The count of a file image, low byte first, is the number of words. -/
theorem count_fileImage {n : Nat} (h : n ≤ 65535) :
    (BitVec.ofNat 8 (n % 256)).toNat + 256 * (BitVec.ofNat 8 (n / 256)).toNat = n := by
  rw [BitVec.toNat_ofNat, BitVec.toNat_ofNat]
  omega

theorem loadFile_fileImage {ws : List Word} (h : ws.length ≤ 65535) : loadFile (fileImage ws) = .words ws := by
  have hlen : (wordBytes ws).length =
      2 * ((BitVec.ofNat 8 (ws.length % 256)).toNat + 256 * (BitVec.ofNat 8 (ws.length / 256)).toNat) := by
    rw [count_fileImage h, length_wordBytes]
  have himage : fileImage ws =
      BitVec.ofNat 8 (ws.length % 256) :: BitVec.ofNat 8 (ws.length / 256) :: wordBytes ws := rfl
  rw [himage, loadFile_of_exact hlen, payloadWords_wordBytes]

/-- Settles O56: an exact payload is loaded as its words, a short one is refused, and the bytes of a word sequence are read
back as it. -/
theorem loaderReadsTheFileFormat : Obligations.LoaderReadsTheFileFormat := by
  refine ⟨fun b0 b1 payload h => ?exact, fun b0 b1 payload h => loadFile_of_short h, fun ws h => loadFile_fileImage h⟩
  case exact =>
    refine ⟨payloadWords payload, loadFile_of_exact h, ?_, fun k hi lo hhi hlo => ?_⟩
    · rw [length_payloadWords, h, Nat.mul_div_cancel_left _ (by decide)]
    · have hword : (hi ++ lo).toNat = 256 * hi.toNat + lo.toNat := by
        rw [toNat_append_eq]
        omega
      exact ⟨hi ++ lo, payloadWords_getElem? payload k hhi hlo, hword⟩

end Sys2Proof.Machine
end
